-- ==== Sys2Proof/Word.lean ====
section
/-! DEFINITION. The word types of PWD-CORE: one name per width the spec gives (spec/10_state.md R20,
spec/30_encoding.md R70). -/

namespace Sys2Proof

/-- A tick value or a tick difference, `TICK_W` = 32 bits (R6, R73). -/
abbrev Tick := BitVec 32

/-- An 8-bit accumulator or a data byte of the frame (`ACC_W`, R6, R24, R25). -/
abbrev Byte := BitVec 8

/-- The bit-index register, `BIT_W` = 7 bits, two's complement (R23). -/
abbrev BitIndex := BitVec 7

/-- The checksum accumulator, `CS_W` = 9 bits; bit 8 is the sentinel flag (R26). -/
abbrev Checksum := BitVec 9

/-- An outcome kind code, the contents of `status` (R28, R81). -/
abbrev KindCode := BitVec 3

/-- An event word of the format `EV` (R71). -/
abbrev EventWord := BitVec 35

/-- An outcome word of the format `OUT`, as bits (R80). -/
abbrev OutcomeBits := BitVec 51

/-- A watchdog command of the format `WD`: the window in milliseconds, 0 disarms (R82). -/
abbrev WdCommand := BitVec 8

end Sys2Proof
end

