-- ==== Sys2Proof/Config.lean ====
section
/-! DEFINITION. The one fixed parameter set of the block (spec/00_scope.md R6, spec/10_state.md R34):
named constants, never inlined in a meaning. There is no free value: no rule of the spec leaves a
result open (R160). The values are the spec's; that claims are stated for these values and not for
every value is log 9. -/

namespace Sys2Proof.Config

/-- `T_BIT`: a pulse of this many ticks or more is a 1 (R6, R104). -/
def tBit : Tick := 50

/-- `T_SYNC`: a pulse of this many ticks or more also sets the checksum sentinel (R6, R105). -/
def tSync : Tick := 200

/-- `T_IDLE`: a `FALL` whose gap is strictly greater performs a hard resync (R6, R113). -/
def tIdle : Tick := 250000

/-- The pre-frame sentinel of the bit index, `-PRE_BITS` = -2 (R6, R23). -/
def preFrame : BitIndex := -2

/-- `FRAME_BITS`: the bit index of a complete frame (R6, R23). -/
def frameBits : BitIndex := 40

/-- `CS_SENTINEL` = 256 (R6, R26). -/
def csSentinel : Checksum := 256

/-- `WD_WINDOW_MS`: the window that `ARM` commands (R6, R82). -/
def wdWindowMs : WdCommand := 200

/-- The watchdog command that disarms (R82: "0 disarms"). -/
def wdDisarm : WdCommand := 0

/-- A window of bit indices, both ends inside it (R6). -/
structure Window where
  first : Int
  last : Int
deriving DecidableEq, Repr

/-- Membership of a bit index in a window. -/
def Window.has (w : Window) (i : Int) : Bool :=
  decide (w.first ≤ i) && decide (i ≤ w.last)

/-- `W_HUM`, `W_HUMF`, `W_TMP`, `W_TMPF`, `W_CS` (R6): "the range boundaries above must be preserved
exactly". -/
def wHum : Window := ⟨0, 7⟩
def wHumF : Window := ⟨8, 15⟩
def wTmp : Window := ⟨16, 23⟩
def wTmpF : Window := ⟨24, 31⟩
def wCs : Window := ⟨32, 39⟩

end Sys2Proof.Config
end

