-- ==== Sys2Proof/Syntax.lean ====
section
/-! DEFINITION. The operations of the block, one constructor per row of spec/opcode_table.json
(spec/30_encoding.md R72). `tick` is the only operand of any operation (R73). `RESET` is a pin and no
operation (R87): it is an `Input` of Machine/State.lean. -/

namespace Sys2Proof

inductive Instr where
  /-- Falling edge (R100). -/
  | fall (tick : Tick)
  /-- Rising edge (R101). -/
  | rise (tick : Tick)
  /-- Watchdog timeout (R102). -/
  | wdt (tick : Tick)
  /-- Start of a trigger cycle (R140). -/
  | arm (tick : Tick)
  /-- Teardown (R141). -/
  | cancel (tick : Tick)
  /-- Reserved code 5 (R142). -/
  | rsv5 (tick : Tick)
  /-- Reserved code 6 (R142). -/
  | rsv6 (tick : Tick)
  /-- Reserved code 7 (R142). -/
  | rsv7 (tick : Tick)
deriving DecidableEq, Repr

end Sys2Proof
end

