-- ==== Sys2Proof/WellFormed.lean ====
section
/-! DEFINITION. What the spec asks of a producer of events. The block itself accepts every one of the
2^35 event words (spec/30_encoding.md R75), so no `Instr` is rejected by it; the checks here are on
what a producer writes: a line of the trace syntax (R85), a word as a number (R70, R71), and the
reserved codes, which "a producer must not emit" (R75). -/

namespace Sys2Proof

/-- Whether the block accepts the operation: always (R75, R142). -/
def Instr.accepted : Instr → Bool
  | .fall _ => true
  | .rise _ => true
  | .wdt _ => true
  | .arm _ => true
  | .cancel _ => true
  | .rsv5 _ => true
  | .rsv6 _ => true
  | .rsv7 _ => true

/-- Whether a producer may emit the operation (R75: "A producer must not emit the reserved codes"). -/
def Instr.wellFormed : Instr → Bool
  | .fall _ => true
  | .rise _ => true
  | .wdt _ => true
  | .arm _ => true
  | .cancel _ => true
  | .rsv5 _ => false
  | .rsv6 _ => false
  | .rsv7 _ => false

/-- A number that fits the event port, which is 35 bits wide (R70, R71). -/
def fitsEventPort (n : Nat) : Bool := decide (n < 2 ^ 35)

/-- One line of a trace (R85): an operation, given by its code 0 to 7, with a tick written as a
number, or `RESET`. -/
inductive TraceLine where
  | event (op : Nat) (tick : Nat)
  | reset
deriving DecidableEq, Repr

/-- R85: the mnemonic is one of the eight, and the tick is "between 0 and 2^32 - 1". -/
def TraceLine.wellFormed : TraceLine → Bool
  | .event op tick => decide (op < 8) && decide (tick < 2 ^ 32)
  | .reset => true

end Sys2Proof
end

