-- ==== Sys2Proof/Decode.lean ====
section
/-! DEFINITION. The decoder of event words and, after it, the encoder (spec/30_encoding.md R71, R72).
The decoder needs only the three bits of `op` and is total on the 2^35 words (R75); a number that does
not fit the event port is rejected by name. -/

namespace Sys2Proof

/-- The field `tick`, bits 31:0 (R71). -/
def tickField (w : EventWord) : Tick := w.extractLsb' 0 32

/-- The decoder of the event port: `op` is bits 34, 33, 32, one row per code of R72. -/
def decode (w : EventWord) : Instr :=
  match w.getLsbD 34, w.getLsbD 33, w.getLsbD 32 with
  | false, false, false => .fall (tickField w)
  | false, false, true => .rise (tickField w)
  | false, true, false => .wdt (tickField w)
  | false, true, true => .arm (tickField w)
  | true, false, false => .cancel (tickField w)
  | true, false, true => .rsv5 (tickField w)
  | true, true, false => .rsv6 (tickField w)
  | true, true, true => .rsv7 (tickField w)

/-- Why a number is no event word. -/
inductive DecodeReject where
  /-- The number has a bit above bit 34: it is no value of the 35-bit event port (R70, R71). Raised by
  `decodeNumber`; the block itself can never see it, its port being 35 bits wide. Safe. -/
  | widerThanEventPort
deriving DecidableEq, Repr

/-- The decoder on a number: `op * 2^32 + tick` (R71). -/
def decodeNumber (n : Nat) : Except DecodeReject Instr :=
  if fitsEventPort n then .ok (decode (BitVec.ofNat 35 n)) else .error .widerThanEventPort

/-- The decoder on a word numbered as spec/opcode_table.json numbers it: one 35-bit word, bit 0 its
least significant bit, no second word. Bits at and above `nbits` are 0. -/
def decodeTableWord (nbits w : Nat) : Option Instr :=
  match decodeNumber (w % 2 ^ nbits) with
  | .ok i => some i
  | .error .widerThanEventPort => none

/-! ## The encoder, from the same table -/

/-- The operation code of an operation (R72). -/
def Instr.opcode : Instr → BitVec 3
  | .fall _ => 0b000
  | .rise _ => 0b001
  | .wdt _ => 0b010
  | .arm _ => 0b011
  | .cancel _ => 0b100
  | .rsv5 _ => 0b101
  | .rsv6 _ => 0b110
  | .rsv7 _ => 0b111

/-- The operand of an operation (R73). -/
def Instr.tick : Instr → Tick
  | .fall t => t
  | .rise t => t
  | .wdt t => t
  | .arm t => t
  | .cancel t => t
  | .rsv5 t => t
  | .rsv6 t => t
  | .rsv7 t => t

/-- The event word of an operation: `op` above `tick` (R71). -/
def encode (i : Instr) : EventWord := i.opcode ++ i.tick

/-- The event word of a trace line (R85), as the number `op * 2^32 + tick` (R71); `none` for `RESET`,
which has no event word, and for a line that is not well formed. -/
def TraceLine.number : TraceLine → Option Nat
  | .event op tick => if (TraceLine.event op tick).wellFormed then some (op * 2 ^ 32 + tick) else none
  | .reset => none

end Sys2Proof
end

