-- ==== Sys2Proof/Machine/State.lean ====
section
/-! DEFINITION. The state of the block: the eleven registers of spec/10_state.md R20 and two fields of
the model's own that stand for the ports (logs 1 and 2); the outcome words; reset. -/

namespace Sys2Proof.Machine

/-- The kinds of outcome the block emits (R81, R161). `NONE` is no outcome but the value 0 of `status`;
`RESOURCE_ERROR` and the codes 6 and 7 are never emitted by the block (R165). -/
inductive OutcomeKind where
  | reading
  | checksumMismatch
  | timeout
  | incomplete
deriving DecidableEq, Repr

/-- The outcome word, "the sole handoff to calling code" (R80). -/
structure OutcomeWord where
  kind : OutcomeKind
  hum : Byte
  tmp : Byte
  time : Tick
deriving DecidableEq, Repr

/-- What a step drives: a watchdog command (R82) or an outcome word (R80). -/
inductive Output where
  | wd (ms : WdCommand)
  | out (word : OutcomeWord)
deriving DecidableEq, Repr

/-- What the environment presents: an event word (R70, R71) or the pin `rst` (R87). -/
inductive Input where
  | event (word : EventWord)
  | reset
deriving DecidableEq, Repr

/-- The state. The first eleven fields are the registers of R20; `inputs` and `emitted` are the
model's own (logs 1 and 2). -/
structure State where
  /-- A trigger cycle is in progress (R21). -/
  armed : Bool
  /-- The bit index, two's complement (R23). -/
  bit : BitIndex
  /-- The humidity accumulator (R24). -/
  hum : Byte
  /-- The temperature accumulator (R25). -/
  tmp : Byte
  /-- The checksum accumulator; bit 8 is the sentinel flag (R26). -/
  cs : Checksum
  /-- The reference tick (R27). -/
  tref : Tick
  /-- The kind code of the last outcome (R28). -/
  status : KindCode
  /-- The result latch (R33). -/
  resValid : Bool
  resHum : Byte
  resTmp : Byte
  resTime : Tick
  /-- The inputs not yet presented, oldest first. DESIGN CHOICE (log 1), safe. -/
  inputs : List Input
  /-- The outputs of the last step, in the order it drove them. DESIGN CHOICE (log 2), safe. -/
  emitted : List Output
deriving DecidableEq, Repr

/-- The reasons a step can fault: none. "The block never faults, halts, hangs in a step, or produces
an undefined result" (R160). -/
inductive Fault where
deriving DecidableEq, Repr

/-- The reasons a step can be refused. -/
inductive Refusal where
  /-- Raised by an arm of `exec` whose instruction has no meaning yet. No arm of this model raises it:
  every row of the opcode table has its meaning. Safe. -/
  | notModelled (mnemonic : String)
deriving DecidableEq, Repr

/-- The value of `status` when the current cycle has no outcome yet, and after reset (R28, R81). -/
def statusNone : KindCode := 0

/-- The machine after reset (R37, R200), with no input pending and nothing emitted. -/
def State.reset : State where
  armed := false
  bit := -2
  hum := 0
  tmp := 0
  cs := 0
  tref := 0
  status := statusNone
  resValid := false
  resHum := 0
  resTmp := 0
  resTime := 0
  inputs := []
  emitted := []

end Sys2Proof.Machine
end

