-- ==== Sys2Proof/Machine/Operands.lean ====
section
/-! DEFINITION. What an operation computes from its one operand: the wrap-aware difference, the pulse
width discriminator, and the field of the frame a bit index selects (spec/40_pulse_decoder.md R103 to
R107, spec/20_memory.md R51). -/

namespace Sys2Proof.Machine

/-- `delta(a, b) = (b - a) mod 2^32`, from the earlier tick `a` to the later tick `b` (R103). -/
def tickDelta (a b : Tick) : Tick := b - a

/-- The decoded bit of a pulse of width `d` (R104); unsigned comparison. -/
def pulseBit (d : Tick) : Bool := decide (Config.tBit ≤ d)

/-- Whether a pulse of width `d` is a sync marker (R105); unsigned comparison. -/
def pulseSync (d : Tick) : Bool := decide (Config.tSync ≤ d)

/-- The discriminator as one function, `(b, s)` (R106). -/
def classify (d : Tick) : Bool × Bool := (pulseBit d, pulseSync d)

/-- Whether a gap of `d` ticks makes a `FALL` resynchronise: strictly greater than `T_IDLE` (R113). -/
def idleGap (d : Tick) : Bool := decide (Config.tIdle < d)

/-- The fields of the frame (R51). `complete` is the bit index 40, at which no bit is expected. -/
inductive FrameField where
  | preamble
  | humidity
  | humidityFraction
  | temperature
  | temperatureFraction
  | checksum
  | complete
deriving DecidableEq, Repr

/-- The field that a bit index selects (R51, R107). Indices below -2 and above 40 are held by no
reachable state (R38, R115): below they count as preamble, above as complete (log 6). -/
def FrameField.ofIndex (i : Int) : FrameField :=
  if i < 0 then .preamble
  else if Config.wHum.has i then .humidity
  else if Config.wHumF.has i then .humidityFraction
  else if Config.wTmp.has i then .temperature
  else if Config.wTmpF.has i then .temperatureFraction
  else if Config.wCs.has i then .checksum
  else .complete

/-- The 8-bit fold `{acc[6:0], b}` (R108). -/
def fold8 (acc : Byte) (b : Bool) : Byte := acc.extractLsb' 0 7 ++ BitVec.ofBool b

/-- The 9-bit fold `{cs[8], cs[6:0], b}`, which keeps the sentinel flag (R109). -/
def foldCs (cs : Checksum) (b : Bool) : Checksum :=
  cs.extractLsb' 8 1 ++ cs.extractLsb' 0 7 ++ BitVec.ofBool b

end Sys2Proof.Machine
end

