-- ==== Sys2Proof/Machine/Flags.lean ====
section
/-! DEFINITION. The flags (spec/10_state.md R32) and the checksum validator
(spec/41_checksum_validator.md R130 to R133). The flags `armed` and `res_valid` are registers; the
sentinel flag is bit 8 of `cs`. -/

namespace Sys2Proof.Machine

/-- The checksum sentinel flag `cs[8]` (R26, R32). -/
def sentinelFlag (cs : Checksum) : Bool := cs.getLsbD 8

/-- The received checksum byte `cs[7:0]` (R26). -/
def checksumByte (cs : Checksum) : Byte := cs.extractLsb' 0 8

/-- The 8-bit sum of the two data bytes, carry dropped (R131). -/
def checksumSum (hum tmp : Byte) : Byte := hum + tmp

/-- `valid` (R131): the flag is clear and the byte equals the sum. -/
def checksumValid (hum tmp : Byte) (cs : Checksum) : Bool :=
  !sentinelFlag cs && checksumByte cs == checksumSum hum tmp

/-- The function `validate`: the outcome kind and the two data bytes of the outcome (R131). -/
def validate (hum tmp : Byte) (cs : Checksum) : OutcomeKind × Byte × Byte :=
  if checksumValid hum tmp cs then (.reading, hum, tmp) else (.checksumMismatch, 0, 0)

/-- The code of an outcome kind (R81), the value `status` takes (R28). -/
def OutcomeKind.code : OutcomeKind → KindCode
  | .reading => 1
  | .checksumMismatch => 2
  | .timeout => 3
  | .incomplete => 4

end Sys2Proof.Machine
end

