-- ==== Sys2Proof/Machine/Ops.lean ====
section
/-! DEFINITION. The named operations over the registers, each written once: presenting an input,
driving a port, the fresh FrameState, the hard resync, the parts of a `RISE` step in the order of
spec/40_pulse_decoder.md R112, and the emission of an outcome (spec/60_exceptions.md R168), which is
what taking an exception is on this hardware. There is no return operation (R170): the next cycle
begins with `ARM`. -/

namespace Sys2Proof.Machine

/-- The bit index as the signed number it stands for (R23). -/
def State.index (s : State) : Int := s.bit.toInt

/-! ## The ports -/

/-- The input `i` is presented next, before the inputs already waiting (R58). -/
def State.present (s : State) (i : Input) : State := { s with inputs := i :: s.inputs }

/-- The step of an event begins: the event is taken from the port, and the strobes of the step before
are gone (R9, R70; logs 1 and 2). -/
def State.accept (s : State) (rest : List Input) : State := { s with inputs := rest, emitted := [] }

/-- A step at which nothing is presented: the block "simply waits for events" (R200). DEDUCED (log 3),
safe. -/
def State.wait (s : State) : State := { s with emitted := [] }

/-- `RESET`: every register to its reset value, nothing emitted, in any state (R87, R200). The inputs
still to come are the environment's and stay. -/
def State.takeReset (_s : State) (rest : List Input) : State := { State.reset with inputs := rest }

/-- `emit_wd(ms)` (R8, R82). -/
def State.emitWd (s : State) (ms : WdCommand) : State := { s with emitted := s.emitted ++ [.wd ms] }

/-- `emit_out(kind, hum, tmp, time)` (R8, R80). -/
def State.emitOut (s : State) (kind : OutcomeKind) (hum tmp : Byte) (time : Tick) : State :=
  { s with emitted := s.emitted ++ [.out ⟨kind, hum, tmp, time⟩] }

/-! ## The FrameState -/

/-- The bit index to the pre-frame sentinel and the accumulators to 0: what a hard resync does (R113)
and what `ARM` does among other things (R29, R140). -/
def State.clearFrame (s : State) : State :=
  { s with bit := Config.preFrame, hum := 0, tmp := 0, cs := 0 }

/-- A `FALL` taken while armed (R100): the gap is measured from the old `tref`. -/
def State.recordFall (s : State) (tick : Tick) : State :=
  let s1 := if idleGap (tickDelta s.tref tick) then s.clearFrame else s
  { s1 with tref := tick }

/-- R112 (3): the sentinel replaces `cs` if the pulse is a sync marker (R105). -/
def State.markSync (s : State) (sync : Bool) : State :=
  if sync then { s with cs := Config.csSentinel } else s

/-- R112 (4): the bit goes into the accumulator that the bit index selects, or into none (R107). -/
def State.foldBit (s : State) (b : Bool) : State :=
  match FrameField.ofIndex s.index with
  | .humidity => { s with hum := fold8 s.hum b }
  | .temperature => { s with tmp := fold8 s.tmp b }
  | .checksum => { s with cs := foldCs s.cs b }
  | .preamble => s
  | .humidityFraction => s
  | .temperatureFraction => s
  | .complete => s

/-- R112 (5): the bit index advances by one (R110). -/
def State.advance (s : State) : State := { s with bit := s.bit + 1 }

/-! ## Emitting an outcome (R168) -/

/-- The result latch is written if and only if the kind is `READING` (R33, R168). -/
def State.latch (s : State) (kind : OutcomeKind) (hum tmp : Byte) (time : Tick) : State :=
  if kind = .reading then { s with resValid := true, resHum := hum, resTmp := tmp, resTime := time }
  else s

/-- A cycle ends with an outcome (R168): `armed` to 0, the watchdog disarmed, `status` to the kind, the
outcome word, the latch. The watchdog command comes before the outcome, as in R101, R102 and R141
(log 8). -/
def State.endCycle (s : State) (kind : OutcomeKind) (hum tmp : Byte) (time : Tick) : State :=
  let s1 := { s with armed := false, status := kind.code }
  ((s1.emitWd Config.wdDisarm).emitOut kind hum tmp time).latch kind hum tmp time

/-- R112 (6): completion, the validator's verdict as the outcome (R111, R131). -/
def State.complete (s : State) (tick : Tick) : State :=
  let verdict := validate s.hum s.tmp s.cs
  s.endCycle verdict.1 verdict.2.1 verdict.2.2 tick

/-- A `RISE` taken while armed with the bit index at most 39 (R101), its parts in the order of R112. -/
def State.measureRise (s : State) (tick : Tick) : State :=
  let c := classify (tickDelta s.tref tick)
  let s1 := ((s.markSync c.2).foldBit c.1).advance
  if s1.bit = Config.frameBits then s1.complete tick else s1

/-- A new trigger cycle (R140): a fresh FrameState (R29), `armed`, `status` `NONE`, the watchdog
commanded. -/
def State.startCycle (s : State) (tick : Tick) : State :=
  let s1 := { s.clearFrame with armed := true, tref := tick, status := statusNone }
  s1.emitWd Config.wdWindowMs

/-- The cycle in progress, if there is one, is abandoned with `INCOMPLETE`, before the same step starts
the new one (R143, R167). -/
def State.abandon (s : State) (tick : Tick) : State :=
  if s.armed then s.emitOut .incomplete 0 0 tick else s

end Sys2Proof.Machine
end

