-- ==== Sys2Proof/Machine/HostOps.lean ====
section
/-! DEFINITION. The host's operations `ARM` and `CANCEL` and the reserved codes
(spec/42_trigger_and_control.md). -/

namespace Sys2Proof.Machine

/-- `ARM` (R140, R143): the result latch is not written. -/
def execArm (tick : Tick) (s : State) : Host.Outcome State Fault Refusal :=
  .next ((s.abandon tick).startCycle tick)

/-- `CANCEL` (R141): the watchdog is disarmed in every case; a cycle in progress ends with
`INCOMPLETE`. -/
def execCancel (tick : Tick) (s : State) : Host.Outcome State Fault Refusal :=
  .next (if s.armed then s.endCycle .incomplete 0 0 tick else s.emitWd Config.wdDisarm)

/-- A reserved code is accepted and ignored: no register changes, nothing is emitted (R75, R142;
log 5). -/
def State.ignore (s : State) : State := s

/-- `RSV5` (R142). -/
def execRsv5 (_tick : Tick) (s : State) : Host.Outcome State Fault Refusal := .next s.ignore

/-- `RSV6` (R142). -/
def execRsv6 (_tick : Tick) (s : State) : Host.Outcome State Fault Refusal := .next s.ignore

/-- `RSV7` (R142). -/
def execRsv7 (_tick : Tick) (s : State) : Host.Outcome State Fault Refusal := .next s.ignore

end Sys2Proof.Machine
end

