-- ==== Sys2Proof/Machine/PulseDecoder.lean ====
section
/-! DEFINITION. The operations of the Edge Source: `FALL`, `RISE`, `WDT` (spec/40_pulse_decoder.md). -/

namespace Sys2Proof.Machine

/-- `FALL` (R100); ignored while not armed (R114). -/
def execFall (tick : Tick) (s : State) : Host.Outcome State Fault Refusal :=
  .next (if s.armed then s.recordFall tick else s)

/-- `RISE` (R101); ignored while not armed (R114), and at a bit index of 40 or more (R118). -/
def execRise (tick : Tick) (s : State) : Host.Outcome State Fault Refusal :=
  .next (if s.armed ∧ s.index ≤ 39 then s.measureRise tick else s)

/-- `WDT` (R102): the watchdog is disarmed in every case; a cycle in progress ends with `TIMEOUT`. -/
def execWdt (tick : Tick) (s : State) : Host.Outcome State Fault Refusal :=
  .next (if s.armed then s.endCycle .timeout 0 0 tick else s.emitWd Config.wdDisarm)

end Sys2Proof.Machine
end

