-- ==== Sys2Proof/Machine/Dispatch.lean ====
section
/-! DEFINITION. One arm per operation of spec/opcode_table.json. -/

namespace Sys2Proof.Machine

def exec (i : Instr) (s : State) : Host.Outcome State Fault Refusal :=
  match i with
  | .fall tick => Sys2Proof.Machine.execFall tick s
  | .rise tick => Sys2Proof.Machine.execRise tick s
  | .wdt tick => Sys2Proof.Machine.execWdt tick s
  | .arm tick => Sys2Proof.Machine.execArm tick s
  | .cancel tick => Sys2Proof.Machine.execCancel tick s
  | .rsv5 tick => Sys2Proof.Machine.execRsv5 tick s
  | .rsv6 tick => Sys2Proof.Machine.execRsv6 tick s
  | .rsv7 tick => Sys2Proof.Machine.execRsv7 tick s

end Sys2Proof.Machine
end

