-- ==== Sys2Proof/Machine/Step.lean ====
section
/-! DEFINITION. One step (spec/00_scope.md R9): the next input is taken and processed to completion.
Every step answers a next state (R160). -/

namespace Sys2Proof.Machine

/-- One step. Inputs are taken one at a time in the order presented (R58); an event word is decoded and
run (R71, R72); `RESET` is no event word (R87); with nothing presented the block waits (log 3). -/
def step (s : State) : Host.Outcome State Fault Refusal :=
  match s.inputs with
  | [] => .next s.wait
  | .reset :: rest => .next (s.takeReset rest)
  | .event w :: rest => exec (decode w) (s.accept rest)

/-- `s` with the event word `w` (as spec/opcode_table.json numbers it) presented next, so that the very
next step runs it (log 4). -/
def State.withFetchWord (s : State) (nbits w : Nat) : State :=
  s.present (.event (BitVec.ofNat 35 (w % 2 ^ nbits)))

end Sys2Proof.Machine
end

