-- ==== Sys2Proof/Machine/Ports.lean ====
section
/-! DEFINITION. The output ports as the outside sees them (spec/30_encoding.md R70, R80 to R83), the
layout of the outcome word with its decoder, and the named states (spec/10_state.md R36). All of it is
a view of State: nothing here changes a register, and reading has no side effect (R57). -/

namespace Sys2Proof.Machine

/-! ## The outcome word (R80) -/

/-- `OUT` as 51 bits: `kind` 50:48, `hum` 47:40, `tmp` 39:32, `time` 31:0. -/
def OutcomeWord.bits (o : OutcomeWord) : OutcomeBits := o.kind.code ++ o.hum ++ o.tmp ++ o.time

/-- Why 51 bits are no outcome word of the block. -/
inductive OutcomeReject where
  /-- The kind code is 0 (`NONE`), 5 (reserved for `RESOURCE_ERROR`), 6 or 7, which the block never
  emits (R81). Raised by `OutcomeWord.ofBits`; no step raises it. Safe. -/
  | kindNeverEmitted (code : KindCode)
deriving DecidableEq, Repr

/-- The kind with a given code (R81); 0, 5, 6 and 7 are never emitted. -/
def OutcomeKind.ofCode (c : KindCode) : Option OutcomeKind :=
  match c.getLsbD 2, c.getLsbD 1, c.getLsbD 0 with
  | false, false, false => none
  | false, false, true => some .reading
  | false, true, false => some .checksumMismatch
  | false, true, true => some .timeout
  | true, false, false => some .incomplete
  | true, false, true => none
  | true, true, false => none
  | true, true, true => none

/-- The decoder of outcome words, which refuses the kinds 0, 5, 6 and 7 by name
(spec/93_implementation_defined.md U5). -/
def OutcomeWord.ofBits (v : OutcomeBits) : Except OutcomeReject OutcomeWord :=
  match OutcomeKind.ofCode (v.extractLsb' 48 3) with
  | some kind => .ok ⟨kind, v.extractLsb' 40 8, v.extractLsb' 32 8, v.extractLsb' 0 32⟩
  | none => .error (.kindNeverEmitted (v.extractLsb' 48 3))

/-! ## The two event-like ports (R70) -/

/-- The watchdog command among the outputs of a step, if there is one. -/
def wdCommands : List Output → List WdCommand
  | [] => []
  | .wd ms :: rest => ms :: wdCommands rest
  | .out _ :: rest => wdCommands rest

/-- The outcome words among outputs. -/
def outcomes : List Output → List OutcomeWord
  | [] => []
  | .wd _ :: rest => outcomes rest
  | .out o :: rest => o :: outcomes rest

/-- The watchdog-command port after a step: `some` is the valid strobe (R70, R82). -/
def State.wdPort (s : State) : Option WdCommand := (wdCommands s.emitted).head?

/-- The outcome port after a step, as bits: `some` is the valid strobe (R70, R80). -/
def State.outPort (s : State) : Option OutcomeBits := ((outcomes s.emitted).head?).map OutcomeWord.bits

/-! ## The level outputs (R83) -/

/-- The six level outputs. -/
structure Levels where
  armed : BitVec 1
  status : KindCode
  resValid : BitVec 1
  resHum : Byte
  resTmp : Byte
  resTime : Tick
deriving DecidableEq, Repr

/-- Continuous copies of the six registers (R83). -/
def State.levels (s : State) : Levels :=
  ⟨BitVec.ofBool s.armed, s.status, BitVec.ofBool s.resValid, s.resHum, s.resTmp, s.resTime⟩

/-! ## The named states (R36) -/

/-- The source's named states. -/
inductive NamedState where
  | idle
  | syncing
  | accumulatingHumidity
  | accumulatingHumidityFraction
  | accumulatingTemperature
  | accumulatingTemperatureFraction
  | accumulatingChecksum
  | complete
deriving DecidableEq, Repr

/-- The named state as a function of `armed`, `status` and `bit` (R36); `none` for an armed state whose
bit index lies outside -2 to 39, which no run reaches and to which R36 gives no name. -/
def State.named (s : State) : Option NamedState :=
  if s.armed then
    if s.index < -2 then none
    else match FrameField.ofIndex s.index with
      | .preamble => some .syncing
      | .humidity => some .accumulatingHumidity
      | .humidityFraction => some .accumulatingHumidityFraction
      | .temperature => some .accumulatingTemperature
      | .temperatureFraction => some .accumulatingTemperatureFraction
      | .checksum => some .accumulatingChecksum
      | .complete => none
  else if s.status = statusNone then some .idle
  else some .complete

end Sys2Proof.Machine
end

