-- ==== Sys2Proof/Machine/Trace.lean ====
section
/-! DEFINITION. Traces: sequences of inputs and what the block answers to them
(spec/20_memory.md R58, R59), the pseudo-operations of the trace syntax (spec/30_encoding.md R85, R86)
and the frame traces of spec/44_laws.md R230. -/

namespace Sys2Proof.Machine

/-! ## Running a trace -/

/-- The outputs, in order, and the end state of a sequence of inputs presented one after the other:
the state is the fold of `step`, the outputs are the concatenation of the steps' outputs (R59). `none`
if a step does not answer a next state, which never happens (R160). -/
def runTrace : List Input → State → Option (List Output × State)
  | [], s => some ([], s)
  | i :: rest, s =>
    match step (s.present i) with
    | .next s' => (runTrace rest s').map fun r => (s'.emitted ++ r.1, r.2)
    | .fault _ => none
    | .refused _ => none

/-- The input that presents an operation. -/
def opInput (i : Instr) : Input := .event (encode i)

/-- A trace of operations only: no `RESET` in it. -/
def opTrace (ops : List Instr) : List Input := ops.map opInput

/-- The input of a trace line (R85); `none` for a line that is not well formed. -/
def lineInput : TraceLine → Option Input
  | .reset => some .reset
  | .event op tick => ((TraceLine.event op tick).number).map fun n => .event (BitVec.ofNat 35 n)

/-- Whether an operation is a `RISE`. -/
def isRise : Instr → Bool
  | .rise _ => true
  | .fall _ => false
  | .wdt _ => false
  | .arm _ => false
  | .cancel _ => false
  | .rsv5 _ => false
  | .rsv6 _ => false
  | .rsv7 _ => false

/-- Whether an operation is an edge, `FALL` or `RISE`. -/
def isEdge : Instr → Bool
  | .fall _ => true
  | .rise _ => true
  | .wdt _ => false
  | .arm _ => false
  | .cancel _ => false
  | .rsv5 _ => false
  | .rsv6 _ => false
  | .rsv7 _ => false

/-- Whether an operation is an `ARM`. -/
def isArm : Instr → Bool
  | .arm _ => true
  | .fall _ => false
  | .rise _ => false
  | .wdt _ => false
  | .cancel _ => false
  | .rsv5 _ => false
  | .rsv6 _ => false
  | .rsv7 _ => false

/-- Whether an operation ends a cycle in progress at whatever bit index it stands: `WDT`, `CANCEL` or
another `ARM` (R173). -/
def endsAnyCycle : Instr → Bool
  | .wdt _ => true
  | .arm _ => true
  | .cancel _ => true
  | .fall _ => false
  | .rise _ => false
  | .rsv5 _ => false
  | .rsv6 _ => false
  | .rsv7 _ => false

/-! ## Translation of time (R235) -/

/-- The operation with `k` added to its tick modulo 2^32. -/
def shiftOp (k : Tick) : Instr → Instr
  | .fall t => .fall (t + k)
  | .rise t => .rise (t + k)
  | .wdt t => .wdt (t + k)
  | .arm t => .arm (t + k)
  | .cancel t => .cancel (t + k)
  | .rsv5 t => .rsv5 (t + k)
  | .rsv6 t => .rsv6 (t + k)
  | .rsv7 t => .rsv7 (t + k)

/-- The output with `k` added to its `time` field, if it has one. -/
def Output.shift (k : Tick) : Output → Output
  | .wd ms => .wd ms
  | .out o => .out { o with time := o.time + k }

/-! ## Pulses and frames (R86, R230) -/

/-- A pulse: a `FALL` followed by a `RISE` (R11). -/
structure Pulse where
  fall : Tick
  rise : Tick
deriving DecidableEq, Repr

/-- The width of a pulse. -/
def Pulse.width (p : Pulse) : Tick := tickDelta p.fall p.rise

/-- The operations of a sequence of pulses. -/
def pulseOps : List Pulse → List Instr
  | [] => []
  | p :: rest => .fall p.fall :: .rise p.rise :: pulseOps rest

/-- `PULSE(d)` for each width in turn, the cursor at `t`, gap `g` (R86). -/
def pulsesFrom (g : Tick) : Tick → List Tick → List Pulse
  | _, [] => []
  | t, d :: rest => ⟨t, t + d⟩ :: pulsesFrom g (t + d + g) rest

/-- The width of `BIT0` or `BIT1` (R86). -/
def bitWidth (b : Bool) : Tick := if b then 70 else 26

/-- The widths of `PRE` (R86). -/
def preWidths : List Tick := [30, 80]

/-- The widths of `BYTE(v)`, most significant bit first (R86, R52). -/
def byteWidths (v : Byte) : List Tick :=
  [bitWidth (v.getLsbD 7), bitWidth (v.getLsbD 6), bitWidth (v.getLsbD 5), bitWidth (v.getLsbD 4),
    bitWidth (v.getLsbD 3), bitWidth (v.getLsbD 2), bitWidth (v.getLsbD 1), bitWidth (v.getLsbD 0)]

/-- The five bytes of a frame (R51). -/
structure Frame where
  hum : Byte
  humFraction : Byte
  tmp : Byte
  tmpFraction : Byte
  checksum : Byte
deriving DecidableEq, Repr

/-- The frame as one number of 40 bits, the first bit the most significant (R53). -/
def Frame.bits (f : Frame) : BitVec 40 :=
  f.hum ++ f.humFraction ++ f.tmp ++ f.tmpFraction ++ f.checksum

/-- The bit at frame position `i`, 0 to 39: position 0 is sent first (R52, R53). -/
def Frame.bitAt (f : Frame) (i : Nat) : Bool := f.bits.getLsbD (39 - i)

/-- The frame whose five bytes are those of a 40-bit number, the first bit the most significant
(R53). -/
def Frame.ofBits (v : BitVec 40) : Frame :=
  ⟨v.extractLsb' 32 8, v.extractLsb' 24 8, v.extractLsb' 16 8, v.extractLsb' 8 8, v.extractLsb' 0 8⟩

/-- The frame with the bit at position `i` (0 to 39) flipped (R232). -/
def Frame.flip (f : Frame) (i : Nat) : Frame :=
  Frame.ofBits (f.bits ^^^ (1#40 <<< (39 - i)))

/-- The checksum byte of a frame is the sum of its two data bytes (R131). -/
def Frame.sumHolds (f : Frame) : Bool := f.checksum == f.hum + f.tmp

/-- The widths of `FRAME(h, hf, t8, tf, c)` (R86). -/
def frameWidths (f : Frame) : List Tick :=
  preWidths ++ byteWidths f.hum ++ byteWidths f.humFraction ++ byteWidths f.tmp
    ++ byteWidths f.tmpFraction ++ byteWidths f.checksum

/-- `FRAME` with the cursor at `t` and the default gap of 50 ticks (R86). -/
def framePulses (t : Tick) (f : Frame) : List Pulse := pulsesFrom 50 t (frameWidths f)

/-- Every `FALL` but the first has a gap of at most `T_IDLE` (R230 (d)). -/
def gapsShort : List Pulse → Prop
  | [] => True
  | [_] => True
  | p :: q :: rest => (tickDelta p.fall q.fall).toNat ≤ 250000 ∧ gapsShort (q :: rest)

/-- The pulses of a well-formed frame trace for the frame `f` (R230): 42 pulses; (a) and (c) every
width below 200; (b) the pulse at frame position `i` is 50 ticks or more exactly if bit `i` is 1; (d)
short gaps. -/
structure WellFormedPulses (f : Frame) (ps : List Pulse) : Prop where
  count : ps.length = 42
  belowSync : ∀ p ∈ ps, p.width.toNat < 200
  bits : ∀ i < 40, ∀ p, ps[i + 2]? = some p → (50 ≤ p.width.toNat ↔ f.bitAt i = true)
  gaps : gapsShort ps

/-- A frame trace: `ARM @a` and then the pulses, 85 operations (R230). -/
def frameOps (a : Tick) (ps : List Pulse) : List Instr := .arm a :: pulseOps ps

/-- From a reference tick on, no `FALL` of the operations comes more than `T_IDLE` ticks after the tick
before it: none of them resynchronises (R113). -/
def fallsClose : Tick → List Instr → Prop
  | _, [] => True
  | t, .fall τ :: rest => (tickDelta t τ).toNat ≤ 250000 ∧ fallsClose τ rest
  | t, .rise _ :: rest => fallsClose t rest
  | t, .wdt _ :: rest => fallsClose t rest
  | t, .arm _ :: rest => fallsClose t rest
  | t, .cancel _ :: rest => fallsClose t rest
  | t, .rsv5 _ :: rest => fallsClose t rest
  | t, .rsv6 _ :: rest => fallsClose t rest
  | t, .rsv7 _ :: rest => fallsClose t rest

/-- The edges of R240, from a `FALL` at `t` on: a `RISE` 150 ms later, a `FALL` another 150 ms later,
`n` times over. -/
def stalledEdges : Tick → Nat → List Instr
  | _, 0 => []
  | t, n + 1 => .rise (t + 150000) :: .fall (t + 300000) :: stalledEdges (t + 300000) n

end Sys2Proof.Machine
end

