-- ==== Sys2Proof/Safety.lean ====
section
/-! DEFINITION. What a legal state is (spec/10_state.md R38, spec/40_pulse_decoder.md R115) and what
claims about runs are stated in. -/

namespace Sys2Proof.Machine

/-- R38, legal values, and the last part of R115, for every reachable state, armed or not. -/
structure Legal (s : State) : Prop where
  indexLow : -2 ≤ s.index
  indexHigh : s.index ≤ 40
  statusLegal : s.status.toNat ≤ 4
  armedIndex : s.armed = true → s.index ≤ 39
  armedStatus : s.armed = true → s.status = 0
  latchEmpty : s.resValid = false → s.resHum = 0 ∧ s.resTmp = 0 ∧ s.resTime = 0

/-- R115 (c), (d), (e): what the accumulators of an armed state can hold. -/
structure Accumulating (s : State) : Prop where
  humBefore : s.index ≤ 0 → s.hum = 0
  humDuring : 0 ≤ s.index → s.index ≤ 8 → s.hum.toNat < 2 ^ s.index.toNat
  tmpBefore : s.index ≤ 16 → s.tmp = 0
  tmpDuring : 16 ≤ s.index → s.index ≤ 24 → s.tmp.toNat < 2 ^ (s.index - 16).toNat
  csBefore : s.index ≤ 32 → s.cs.toNat % 256 = 0
  csDuring : 32 ≤ s.index → s.index ≤ 39 → s.cs.toNat % 256 < 2 ^ (s.index - 32).toNat

/-- The invariant of every reachable state (R38, R115). -/
structure Invariant (s : State) : Prop where
  legal : Legal s
  accumulating : s.armed = true → Accumulating s

/-- Two states that differ at most in the FrameState registers (R22), which no port shows (R31). -/
structure AgreeOutsideFrame (s t : State) : Prop where
  armed : s.armed = t.armed
  status : s.status = t.status
  resValid : s.resValid = t.resValid
  resHum : s.resHum = t.resHum
  resTmp : s.resTmp = t.resTmp
  resTime : s.resTime = t.resTime
  inputs : s.inputs = t.inputs

/-- The five FrameState registers are the same (R22). -/
structure SameFrame (s t : State) : Prop where
  bit : s.bit = t.bit
  hum : s.hum = t.hum
  tmp : s.tmp = t.tmp
  cs : s.cs = t.cs
  tref : s.tref = t.tref

/-- The result latch is the same (R33). -/
structure SameLatch (s t : State) : Prop where
  resValid : s.resValid = t.resValid
  resHum : s.resHum = t.resHum
  resTmp : s.resTmp = t.resTmp
  resTime : s.resTime = t.resTime

/-! ## The readings of the rules that claims are stated in: numbers, not the machine's own operations -/

/-- `s` steps to `t` by processing the operation `i`. -/
def EventStep (s : State) (i : Instr) (t : State) : Prop :=
  ∃ w rest, s.inputs = .event w :: rest ∧ decode w = i ∧ step s = .next t

/-- The ticks from `a` to `b`, modulo 2^32 (R103), as a number. -/
def elapsed (a b : Tick) : Nat := (b.toNat + 2 ^ 32 - a.toNat) % 2 ^ 32

/-- The bit a pulse of `d` ticks carries (R104), as a number. -/
def pulseValue (d : Nat) : Nat := if d < 50 then 0 else 1

/-- `hum` after a `RISE` that ends a pulse of `d` ticks (R24, R101). -/
def humAfter (s : State) (d : Nat) : Byte :=
  if 0 ≤ s.index ∧ s.index ≤ 7 then BitVec.ofNat 8 (2 * s.hum.toNat + pulseValue d) else s.hum

/-- `tmp` after a `RISE` that ends a pulse of `d` ticks (R25, R101). -/
def tmpAfter (s : State) (d : Nat) : Byte :=
  if 16 ≤ s.index ∧ s.index ≤ 23 then BitVec.ofNat 8 (2 * s.tmp.toNat + pulseValue d) else s.tmp

/-- `cs` after the sentinel of a pulse of `d` ticks (R105), as a number: bit 8 and the low byte 0. -/
def csMarked (s : State) (d : Nat) : Nat := if 200 ≤ d then 256 else s.cs.toNat

/-- `cs` after a `RISE` that ends a pulse of `d` ticks (R26, R101, R109): the sentinel first, then, in
the checksum window, the fold of the low byte, bit 8 kept. -/
def csAfter (s : State) (d : Nat) : Checksum :=
  if 32 ≤ s.index ∧ s.index ≤ 39 then
    BitVec.ofNat 9 (csMarked s d / 256 * 256 + (2 * csMarked s d + pulseValue d) % 256)
  else BitVec.ofNat 9 (csMarked s d)

/-- The checksum rule on the state a completing `RISE` leaves (R131): as numbers, the received checksum
equals the sum of the data bytes modulo 256. -/
def sumMatches (s : State) (d : Nat) : Prop :=
  (csAfter s d).toNat = (s.hum.toNat + s.tmp.toNat) % 256

end Sys2Proof.Machine
end

