-- ==== Sys2Proof/Certificates/Slice0/Obligations.lean ====
section
/-! DEFINITION. The statements for the provers. Each docstring names the rules of spec/ it formalises
and says where a clause is an inference or a choice. -/

open Sys2Proof Sys2Proof.Machine

/-! ## Encoding -/

/-- R72: the operation codes, for every tick. -/
def Obligations.OperationCodesDecode : Prop :=
  ∀ t : Tick,
    decode (0b000#3 ++ t) = .fall t ∧ decode (0b001#3 ++ t) = .rise t ∧
    decode (0b010#3 ++ t) = .wdt t ∧ decode (0b011#3 ++ t) = .arm t ∧
    decode (0b100#3 ++ t) = .cancel t ∧ decode (0b101#3 ++ t) = .rsv5 t ∧
    decode (0b110#3 ++ t) = .rsv6 t ∧ decode (0b111#3 ++ t) = .rsv7 t

/-- R71, R85: an event word is the number `op * 2^32 + tick`; a well-formed trace line has that number,
and a line whose code or tick is out of range has none. The second sentence rests on R85. -/
def Obligations.EventWordIsOpAndTick : Prop :=
  (∀ i : Instr, (encode i).toNat = i.opcode.toNat * 2 ^ 32 + i.tick.toNat) ∧
  (∀ op tick : Nat, op < 8 → tick < 2 ^ 32 →
    (TraceLine.event op tick).number = some (op * 2 ^ 32 + tick)) ∧
  (∀ op tick : Nat, 8 ≤ op ∨ 2 ^ 32 ≤ tick → (TraceLine.event op tick).number = none)

/-- R71, R72, R75: decoding and encoding are inverse to each other on all 2^35 event words, and the
table's numbering of a word gives its operation. The last clause is the model's choice and no rule's: a
number of 2^35 or more, which the port cannot carry, is rejected by the decoder on numbers (log 10,
DESIGN CHOICE). -/
def Obligations.DecodeEncodeAgree : Prop :=
  (∀ i : Instr, decode (encode i) = i) ∧
  (∀ w : EventWord, encode (decode w) = w) ∧
  (∀ i : Instr, decodeTableWord 40 (encode i).toNat = some i) ∧
  (∀ n : Nat, 2 ^ 35 ≤ n → decodeNumber n = .error .widerThanEventPort)

/-- A few event words of spec/95_test_vectors.md V12, bit by bit. -/
def Obligations.WordsOfTheVectorTableDecode : Prop :=
  decode 0b00000000000000011110100001001011110#35 = .fall 1000030 ∧
  decode 0b00100000000000011110100001010111110#35 = .rise 1000126 ∧
  decode 0b01000000000010011110110000000001010#35 = .wdt 5201930 ∧
  decode 0b01100000000000011110100001001000000#35 = .arm 1000000 ∧
  decode 0b10000000000000111101000010010000000#35 = .cancel 2000000 ∧
  decode 0b10100000000000000000000000000000000#35 = .rsv5 0 ∧
  decode 0b11000000000000000000000000001111011#35 = .rsv6 123 ∧
  decode 0b11111111111111111111111111111111111#35 = .rsv7 4294967295

/-- R80, R81: the outcome word as a number; decoding gives an outcome back, every word that decodes is
the word of what it decodes to, and the kinds 0, 5, 6 and 7 decode to nothing, as U5 of
spec/93_implementation_defined.md asks of a decoder (log 10). -/
def Obligations.OutcomeWordLayout : Prop :=
  (∀ o : OutcomeWord, o.bits.toNat =
    o.kind.code.toNat * 2 ^ 48 + o.hum.toNat * 2 ^ 40 + o.tmp.toNat * 2 ^ 32 + o.time.toNat) ∧
  (∀ o : OutcomeWord, OutcomeWord.ofBits o.bits = .ok o) ∧
  (∀ v o, OutcomeWord.ofBits v = .ok o → o.bits = v) ∧
  (∀ v : OutcomeBits, v.toNat / 2 ^ 48 = 0 ∨ 5 ≤ v.toNat / 2 ^ 48 →
    OutcomeWord.ofBits v = .error (.kindNeverEmitted (v.extractLsb' 48 3)))

/-! ## Reset and the step -/

/-- R37: every register after reset, and the named state `Idle`. -/
def Obligations.ResetLeavesTheTableValues : Prop :=
  State.reset.armed = false ∧ State.reset.bit = 0b1111110#7 ∧ State.reset.index = -2 ∧
  State.reset.hum = 0 ∧ State.reset.tmp = 0 ∧ State.reset.cs = 0 ∧ State.reset.tref = 0 ∧
  State.reset.status = 0 ∧ State.reset.resValid = false ∧ State.reset.resHum = 0 ∧
  State.reset.resTmp = 0 ∧ State.reset.resTime = 0 ∧ State.reset.named = some .idle

/-- R200: the input `RESET`, in any state, gives every register its reset value and emits nothing; and
it is the only thing that clears the result latch. (How inputs wait their turn is log 1.) -/
def Obligations.ResetInputResetsEveryRegister : Prop :=
  (∀ s rest, s.inputs = .reset :: rest → step s = .next
    { armed := false, bit := -2, hum := 0, tmp := 0, cs := 0, tref := 0, status := 0,
      resValid := false, resHum := 0, resTmp := 0, resTime := 0, inputs := rest, emitted := [] }) ∧
  (∀ s t, s.inputs.head? ≠ some .reset → s.resValid = true → step s = .next t → t.resValid = true)

/-- R201: a `RESET` during a cycle ends it without an outcome and without a watchdog command, and a
`WDT` that comes afterwards is answered with `WD(0)` only. -/
def Obligations.ResetDuringACycleGivesNoOutcome : Prop :=
  ∀ (s : State) (τ : Tick), s.armed = true → ∃ t u,
    runTrace [.reset] s = some ([], t) ∧ t.armed = false ∧
    runTrace [opInput (.wdt τ)] t = some ([.wd 0], u) ∧ u.armed = false ∧ u.status = 0

/-- R9, R58, R71: a step takes the next event word and runs the operation it decodes to, on the state
with that word gone and the outputs of the step before gone. What a step does when nothing is presented
(it waits: nothing but those outputs changes) is the model's, log 3. -/
def Obligations.StepRunsTheDecodedEvent : Prop :=
  (∀ (s : State) (w : EventWord) (rest : List Input), s.inputs = .event w :: rest →
    step s = exec (decode w) { s with inputs := rest, emitted := [] }) ∧
  (∀ s : State, s.inputs = [] → step s = .next { s with emitted := [] })

/-- R160: a step is a total function; it never stops, in any state, reachable or not. -/
def Obligations.EveryStepAnswersANextState : Prop :=
  ∀ s : State, ∃ t, step s = .next t

/-- R59: the state after a sequence of inputs is the fold of `step` over it, and the outputs of a
sequence of two parts are those of the first followed by those of the second. -/
def Obligations.TraceIsTheFoldOfStep : Prop :=
  (∀ (ins : List Input) (s : State), ∃ outs t, runTrace ins s = some (outs, t) ∧
    Host.Core.run Sys2Proof.core ins.length { s with inputs := ins ++ s.inputs } = .next t) ∧
  (∀ (a b : List Input) (s t u : State) (o p : List Output), runTrace a s = some (o, t) →
    runTrace b t = some (p, u) → runTrace (a ++ b) s = some (o ++ p, u))

/-! ## The operations -/

/-- R100: `FALL`, with its encoding. The gap is measured from the old `tref`; strictly more than
250000 ticks resynchronise. Nothing is emitted in any case. -/
def Obligations.FallRecordsAndResyncs : Prop :=
  (∀ τ : Tick, decode (0b000#3 ++ τ) = .fall τ) ∧
  ∀ (s : State) (τ : Tick),
    (s.armed = false → exec (.fall τ) s = .next s) ∧
    (s.armed = true → elapsed s.tref τ ≤ 250000 → exec (.fall τ) s = .next { s with tref := τ }) ∧
    (s.armed = true → 250000 < elapsed s.tref τ → exec (.fall τ) s = .next
      { s with bit := -2, hum := 0, tmp := 0, cs := 0, tref := τ })

/-- R101: `RISE`, with its encoding, in every state: ignored while not armed or at a bit index of 40 or
more; before the last position one bit is decoded, folded and counted; at the last position the frame
completes with the validator's verdict. (The order of the two outputs of a step is that of the rule's
pseudocode, here and below: log 8.) -/
def Obligations.RiseDecodesOneBit : Prop :=
  (∀ τ : Tick, decode (0b001#3 ++ τ) = .rise τ) ∧
  ∀ (s : State) (τ : Tick),
    (s.armed = false → exec (.rise τ) s = .next s) ∧
    (s.armed = true → 40 ≤ s.index → exec (.rise τ) s = .next s) ∧
    (s.armed = true → s.index ≤ 38 → exec (.rise τ) s = .next
      { s with
        bit := BitVec.ofInt 7 (s.index + 1)
        hum := humAfter s (elapsed s.tref τ)
        tmp := tmpAfter s (elapsed s.tref τ)
        cs := csAfter s (elapsed s.tref τ) }) ∧
    (s.armed = true → s.index = 39 → sumMatches s (elapsed s.tref τ) → exec (.rise τ) s = .next
      { s with
        armed := false
        bit := 40
        cs := csAfter s (elapsed s.tref τ)
        status := 1
        resValid := true
        resHum := s.hum
        resTmp := s.tmp
        resTime := τ
        emitted := s.emitted ++ [.wd 0, .out ⟨.reading, s.hum, s.tmp, τ⟩] }) ∧
    (s.armed = true → s.index = 39 → ¬ sumMatches s (elapsed s.tref τ) → exec (.rise τ) s = .next
      { s with
        armed := false
        bit := 40
        cs := csAfter s (elapsed s.tref τ)
        status := 2
        emitted := s.emitted ++ [.wd 0, .out ⟨.checksumMismatch, 0, 0, τ⟩] })

/-- R102: `WDT`, with its encoding. -/
def Obligations.WdtTimesOutACycle : Prop :=
  (∀ τ : Tick, decode (0b010#3 ++ τ) = .wdt τ) ∧
  ∀ (s : State) (τ : Tick),
    (s.armed = true → exec (.wdt τ) s = .next
      { s with
        armed := false
        status := 3
        emitted := s.emitted ++ [.wd 0, .out ⟨.timeout, 0, 0, τ⟩] }) ∧
    (s.armed = false → exec (.wdt τ) s = .next { s with emitted := s.emitted ++ [.wd 0] })

/-- R140: `ARM`, with its encoding: a fresh FrameState, and `INCOMPLETE` first for a cycle in progress
(R143). The result latch is not written. -/
def Obligations.ArmStartsAFreshCycle : Prop :=
  (∀ τ : Tick, decode (0b011#3 ++ τ) = .arm τ) ∧
  ∀ (s : State) (τ : Tick),
    (s.armed = false → exec (.arm τ) s = .next
      { s with
        armed := true, bit := -2, hum := 0, tmp := 0, cs := 0, tref := τ, status := 0
        emitted := s.emitted ++ [.wd 200] }) ∧
    (s.armed = true → exec (.arm τ) s = .next
      { s with
        armed := true, bit := -2, hum := 0, tmp := 0, cs := 0, tref := τ, status := 0
        emitted := s.emitted ++ [.out ⟨.incomplete, 0, 0, τ⟩, .wd 200] })

/-- R141: `CANCEL`, with its encoding. -/
def Obligations.CancelClosesACycle : Prop :=
  (∀ τ : Tick, decode (0b100#3 ++ τ) = .cancel τ) ∧
  ∀ (s : State) (τ : Tick),
    (s.armed = true → exec (.cancel τ) s = .next
      { s with
        armed := false
        status := 4
        emitted := s.emitted ++ [.wd 0, .out ⟨.incomplete, 0, 0, τ⟩] }) ∧
    (s.armed = false → exec (.cancel τ) s = .next { s with emitted := s.emitted ++ [.wd 0] })

/-- R142: the reserved codes, with their encodings: nothing changes and nothing is emitted, in any
state (log 5). -/
def Obligations.ReservedCodesDoNothing : Prop :=
  ∀ (s : State) (τ : Tick),
    decode (0b101#3 ++ τ) = .rsv5 τ ∧ decode (0b110#3 ++ τ) = .rsv6 τ ∧
    decode (0b111#3 ++ τ) = .rsv7 τ ∧
    exec (.rsv5 τ) s = .next s ∧ exec (.rsv6 τ) s = .next s ∧ exec (.rsv7 τ) s = .next s

/-- R118: states no run reaches, armed with a bit index of 40 or more: `RISE` does nothing, the others
act as in any armed state. -/
def Obligations.UnreachableStatesAreDefined : Prop :=
  ∀ (s : State) (τ : Tick), s.armed = true → 40 ≤ s.index →
    exec (.rise τ) s = .next s ∧
    exec (.fall τ) s = .next (if 250000 < elapsed s.tref τ
      then { s with bit := -2, hum := 0, tmp := 0, cs := 0, tref := τ } else { s with tref := τ }) ∧
    exec (.wdt τ) s = .next
      { s with armed := false, status := 3, emitted := s.emitted ++ [.wd 0, .out ⟨.timeout, 0, 0, τ⟩] } ∧
    exec (.cancel τ) s = .next
      { s with armed := false, status := 4, emitted := s.emitted ++ [.wd 0, .out ⟨.incomplete, 0, 0, τ⟩] } ∧
    exec (.arm τ) s = .next
      { s with
        bit := -2, hum := 0, tmp := 0, cs := 0, tref := τ, status := 0
        emitted := s.emitted ++ [.out ⟨.incomplete, 0, 0, τ⟩, .wd 200] }

/-! ## The parts -/

/-- R103: the wrap-aware difference. -/
def Obligations.TickDifferenceWraps : Prop :=
  (∀ a b : Tick, (tickDelta a b).toNat = (b.toNat + 2 ^ 32 - a.toNat) % 2 ^ 32) ∧
  tickDelta 0xFFFFFFF0 0x00000010 = 0x20 ∧
  (∀ a : Tick, tickDelta a a = 0) ∧
  (∀ a b k : Tick, tickDelta (a + k) (b + k) = tickDelta a b) ∧
  (∀ (a : Tick) (n : Nat), n < 2 ^ 32 → (tickDelta a (a + BitVec.ofNat 32 n)).toNat = n)

/-- R104, as the table of R106 with its column for R105: every width falls in exactly one row. -/
def Obligations.PulseWidthClasses : Prop :=
  ∀ d : Tick,
    (d.toNat ≤ 49 → classify d = (false, false)) ∧
    (50 ≤ d.toNat → d.toNat ≤ 199 → classify d = (true, false)) ∧
    (200 ≤ d.toNat → classify d = (true, true))

/-- R109: the fold into `cs` keeps the sentinel flag and folds the low byte; with the flag clear it is
the plain shift-left-and-or on the low byte. -/
def Obligations.ChecksumFoldKeepsTheSentinel : Prop :=
  ∀ (cs : Checksum) (b : Bool),
    (foldCs cs b).toNat = cs.toNat / 256 * 256 + (2 * cs.toNat + b.toNat) % 256 ∧
    sentinelFlag (foldCs cs b) = sentinelFlag cs ∧
    (sentinelFlag cs = true ↔ 256 ≤ cs.toNat) ∧
    (sentinelFlag cs = false → foldCs cs b = (fold8 (checksumByte cs) b).setWidth 9)

/-- R52, R108: folding the eight bits of a byte, most significant first, leaves that byte, whatever the
accumulator held. -/
def Obligations.EightFoldsGiveTheByteFirstBitHighest : Prop :=
  ∀ acc v : Byte,
    [7, 6, 5, 4, 3, 2, 1, 0].foldl (fun a k => fold8 a (v.getLsbD k)) acc = v

/-- R131: the validator, with the rule's examples and corner cases. -/
def Obligations.ValidatorComparesTheSum : Prop :=
  (∀ (h t : Byte) (c : Checksum),
    (c.toNat = (h.toNat + t.toNat) % 256 → validate h t c = (.reading, h, t)) ∧
    (c.toNat ≠ (h.toNat + t.toNat) % 256 → validate h t c = (.checksumMismatch, 0, 0))) ∧
  validate 45 23 68 = (.reading, 45, 23) ∧ validate 45 23 69 = (.checksumMismatch, 0, 0) ∧
  validate 0 0 0 = (.reading, 0, 0) ∧ validate 200 100 44 = (.reading, 200, 100) ∧
  validate 0 0 256 = (.checksumMismatch, 0, 0)

/-! ## What each register and each port does, over all operations -/

/-- R21: `armed`. Set by `ARM` and by nothing else; cleared by every other step that emits an outcome and
by reset; while it is 0 every `FALL` and `RISE` is ignored; 0 after reset. -/
def Obligations.ArmedIsSetByArmAndClearedByOutcomes : Prop :=
  (∀ s i t, EventStep s i t →
    t.armed = if isArm i then true else s.armed && (outcomes t.emitted).isEmpty) ∧
  (∀ (s : State) (τ : Tick), s.armed = false →
    exec (.fall τ) s = .next s ∧ exec (.rise τ) s = .next s) ∧
  (∀ s rest t, s.inputs = .reset :: rest → step s = .next t → t.armed = false) ∧
  State.reset.armed = false

/-- R22: the FrameState is written by `FALL`, `RISE` and `ARM` only; and, R30, by none but `ARM` while
not armed. -/
def Obligations.FrameStateHasThreeWriters : Prop :=
  ∀ s i t, EventStep s i t →
    ((isEdge i || isArm i) = false → SameFrame s t) ∧
    (s.armed = false → isArm i = false → SameFrame s t)

/-- R23, R110, R116: the bit index moves backward only to -2, by `ARM` and by a hard resync, and forward
only by one, by a `RISE` taken while armed at an index of 39 or less. -/
def Obligations.BitIndexMoves : Prop :=
  ∀ s i t, EventStep s i t →
    t.index = match i with
      | .arm _ => -2
      | .fall τ => if s.armed = true ∧ 250000 < elapsed s.tref τ then -2 else s.index
      | .rise _ => if s.armed = true ∧ s.index ≤ 39 then s.index + 1 else s.index
      | .wdt _ | .cancel _ | .rsv5 _ | .rsv6 _ | .rsv7 _ => s.index

/-- R24, R25: what writes the accumulators `hum` and `tmp`, and their reset values. -/
def Obligations.AccumulatorsAreWrittenInTheirWindows : Prop :=
  (∀ s i t, EventStep s i t →
    (t.hum, t.tmp) = match i with
      | .arm _ => (0, 0)
      | .fall τ => if s.armed = true ∧ 250000 < elapsed s.tref τ then (0, 0) else (s.hum, s.tmp)
      | .rise τ =>
        if s.armed = true ∧ s.index ≤ 39
        then (humAfter s (elapsed s.tref τ), tmpAfter s (elapsed s.tref τ)) else (s.hum, s.tmp)
      | .wdt _ | .cancel _ | .rsv5 _ | .rsv6 _ | .rsv7 _ => (s.hum, s.tmp)) ∧
  State.reset.hum = 0 ∧ State.reset.tmp = 0

/-- R26, R105: the sentinel flag `cs[8]`. Set by a pulse of 200 ticks or more at any bit index, cleared
by `ARM` and by a hard resync, and kept by every other step: once set it stays. -/
def Obligations.SentinelFlagIsSticky : Prop :=
  ∀ s i t, EventStep s i t →
    sentinelFlag t.cs = match i with
      | .arm _ => false
      | .fall τ => if s.armed = true ∧ 250000 < elapsed s.tref τ then false else sentinelFlag s.cs
      | .rise τ =>
        if s.armed = true ∧ s.index ≤ 39 ∧ 200 ≤ elapsed s.tref τ then true else sentinelFlag s.cs
      | .wdt _ | .cancel _ | .rsv5 _ | .rsv6 _ | .rsv7 _ => sentinelFlag s.cs

/-- R27: `tref` is written by every `FALL` taken while armed and by `ARM`, to the tick of the event, and
by nothing else; 0 after reset. That nothing but `FALL` and `RISE` reads it: for every other operation
two states that differ in `tref` alone give states that differ in `tref` alone. -/
def Obligations.ReferenceTickHasTwoWriters : Prop :=
  (∀ s i t, EventStep s i t →
    t.tref = match i with
      | .arm τ => τ
      | .fall τ => if s.armed = true then τ else s.tref
      | .rise _ | .wdt _ | .cancel _ | .rsv5 _ | .rsv6 _ | .rsv7 _ => s.tref) ∧
  (∀ i (s t u : State) (x : Tick), isEdge i = false → exec i s = .next t →
    exec i { s with tref := x } = .next u → { u with tref := t.tref } = t) ∧
  State.reset.tref = 0

/-- R28: `status` is the code of the outcome a step emits, but 0 after `ARM`; no other step writes it;
the codes 5, 6 and 7 are never written; 0 after reset. -/
def Obligations.StatusFollowsTheOutcomes : Prop :=
  (∀ s i t, EventStep s i t →
    t.status = (if isArm i then 0 else
      match outcomes t.emitted with
      | [] => s.status
      | o :: _ => match o.kind with
        | .reading => 1
        | .checksumMismatch => 2
        | .timeout => 3
        | .incomplete => 4) ∧
    (t.status = s.status ∨ t.status.toNat ≤ 4)) ∧
  State.reset.status = 0

/-- R33: the result latch is written by a step that emits `READING`, with that outcome's data, and by no
other operation; it is invalid and zero after reset. -/
def Obligations.LatchHoldsTheLastReading : Prop :=
  (∀ s i t, EventStep s i t →
    (∀ o, .out o ∈ t.emitted → o.kind = .reading →
      t.resValid = true ∧ t.resHum = o.hum ∧ t.resTmp = o.tmp ∧ t.resTime = o.time) ∧
    ((∀ o, .out o ∈ t.emitted → o.kind ≠ .reading) → SameLatch s t)) ∧
  State.reset.resValid = false ∧ State.reset.resHum = 0 ∧ State.reset.resTmp = 0 ∧
  State.reset.resTime = 0

/-- R161: the outcomes of every operation, exactly: which step emits which kind, with
which data; failures carry zeros; the kind codes. -/
def Obligations.OutcomesOfEveryOperation : Prop :=
  (∀ s i t, EventStep s i t → ∃ sumOk : Bool,
    (∀ τ, i = .rise τ → (sumOk = true ↔ sumMatches s (elapsed s.tref τ))) ∧
    outcomes t.emitted = match i with
      | .rise τ =>
        if s.armed = true ∧ s.index = 39 then
          (if sumOk then [⟨.reading, s.hum, s.tmp, τ⟩] else [⟨.checksumMismatch, 0, 0, τ⟩])
        else []
      | .wdt τ => if s.armed = true then [⟨.timeout, 0, 0, τ⟩] else []
      | .cancel τ => if s.armed = true then [⟨.incomplete, 0, 0, τ⟩] else []
      | .arm τ => if s.armed = true then [⟨.incomplete, 0, 0, τ⟩] else []
      | .fall _ | .rsv5 _ | .rsv6 _ | .rsv7 _ => []) ∧
  OutcomeKind.code .reading = 1 ∧ OutcomeKind.code .checksumMismatch = 2 ∧
  OutcomeKind.code .timeout = 3 ∧ OutcomeKind.code .incomplete = 4

/-- R82: the watchdog commands of every operation, exactly: 200 by `ARM`, 0 by the completing `RISE`, by
every `WDT` and by every `CANCEL`, none by any other step, a hard resync among them. -/
def Obligations.WatchdogCommandsOfEveryOperation : Prop :=
  ∀ s i t, EventStep s i t →
    wdCommands t.emitted = match i with
      | .arm _ => [200]
      | .wdt _ | .cancel _ => [0]
      | .rise _ => if s.armed = true ∧ s.index = 39 then [0] else []
      | .fall _ | .rsv5 _ | .rsv6 _ | .rsv7 _ => []

/-- R8, R9: a step, whatever it processes, drives each output port at most once, and what the ports show
is what it drove. -/
def Obligations.EachPortIsDrivenAtMostOnce : Prop :=
  ∀ s t, step s = .next t →
    (wdCommands t.emitted).length ≤ 1 ∧ (outcomes t.emitted).length ≤ 1 ∧
    (∀ ms, t.wdPort = some ms ↔ .wd ms ∈ t.emitted) ∧
    (∀ v, t.outPort = some v ↔ ∃ o, .out o ∈ t.emitted ∧ o.bits = v)

/-- R83: the level outputs change only as the outcomes and `ARM` say: states with the same levels,
processing operations that are both `ARM` or both not, and emitting the same outcomes, show the same
levels afterwards. -/
def Obligations.LevelOutputsFollowTheOutcomes : Prop :=
  ∀ s i t s' i' t', EventStep s i t → EventStep s' i' t' → s.levels = s'.levels →
    isArm i = isArm i' → outcomes t.emitted = outcomes t'.emitted → t.levels = t'.levels

/-- R36, R116: the table of state transitions, on states that meet the invariant of R38 and R115 (the
named states have no other). Where a row says that a state is unchanged, every register is. -/
def Obligations.NamedStateTransitions : Prop :=
  ∀ s i t, Invariant s → EventStep s i t →
    (s.armed = false →
      (s.named = some .idle ∨ s.named = some .complete) ∧
      match i with
      | .arm τ => t.named = some .syncing ∧ t.index = -2 ∧ t.hum = 0 ∧ t.tmp = 0 ∧ t.cs = 0 ∧
          t.tref = τ ∧ t.emitted = [.wd 200]
      | .wdt _ | .cancel _ =>
        t = { s with inputs := t.inputs, emitted := [.wd 0] }
      | .fall _ | .rise _ | .rsv5 _ | .rsv6 _ | .rsv7 _ =>
        t = { s with inputs := t.inputs, emitted := [] }) ∧
    (s.armed = true →
      match i with
      | .fall τ => t.armed = true ∧ t.tref = τ ∧ t.emitted = [] ∧
          (elapsed s.tref τ ≤ 250000 → t.named = s.named ∧ t.index = s.index) ∧
          (250000 < elapsed s.tref τ → t.named = some .syncing ∧ t.index = -2 ∧ t.hum = 0 ∧
            t.tmp = 0 ∧ t.cs = 0)
      | .rise τ =>
          (s.index ≤ 38 → t.armed = true ∧ t.index = s.index + 1 ∧ t.emitted = []) ∧
          (s.index = 39 → t.named = some .complete ∧
            (sumMatches s (elapsed s.tref τ) → t.status = 1 ∧
              t.emitted = [.wd 0, .out ⟨.reading, s.hum, s.tmp, τ⟩]) ∧
            (¬ sumMatches s (elapsed s.tref τ) → t.status = 2 ∧
              t.emitted = [.wd 0, .out ⟨.checksumMismatch, 0, 0, τ⟩]))
      | .wdt τ => t.named = some .complete ∧ t.status = 3 ∧
          t.emitted = [.wd 0, .out ⟨.timeout, 0, 0, τ⟩]
      | .arm τ => t.named = some .syncing ∧ t.index = -2 ∧ t.hum = 0 ∧ t.tmp = 0 ∧ t.cs = 0 ∧
          t.tref = τ ∧ t.emitted = [.out ⟨.incomplete, 0, 0, τ⟩, .wd 200]
      | .cancel τ => t.named = some .complete ∧ t.status = 4 ∧
          t.emitted = [.wd 0, .out ⟨.incomplete, 0, 0, τ⟩]
      | .rsv5 _ | .rsv6 _ | .rsv7 _ => t = { s with inputs := t.inputs, emitted := [] })

/-! ## Invariants -/

/-- R38, R115: the invariant of every reachable state is kept by every step, from every state that meets
it, whatever is presented. -/
def Obligations.EveryStepKeepsTheInvariant : Prop :=
  ∀ s t, Invariant s → step s = .next t → Invariant t

/-- R38, R115: the reset state meets the invariant. -/
def Obligations.ResetMeetsTheInvariant : Prop := Invariant State.reset

/-! ## Laws over traces -/

/-- R144: the state after an `ARM` does not depend on `armed`, on the FrameState or on `status`: only the
tick and the result latch decide it, and the watchdog command is `WD(200)` in every case. -/
def Obligations.ArmForgetsTheCycleBefore : Prop :=
  ∀ (s u : State) (τ : Tick), SameLatch s u → ∃ t v,
    exec (.arm τ) s = .next t ∧ exec (.arm τ) u = .next v ∧ t.levels = v.levels ∧ SameFrame t v ∧
    wdCommands t.emitted = wdCommands s.emitted ++ [200] ∧
    wdCommands v.emitted = wdCommands u.emitted ++ [200]

/-- R231: from any state, a well-formed frame trace whose checksum byte is the sum of its data bytes
gives `READING` with those bytes, and exactly these outputs and this end state. -/
def Obligations.CorrectFrameGivesItsReading : Prop :=
  ∀ (s : State) (f : Frame) (a : Tick) (ps : List Pulse) (p : Pulse),
    WellFormedPulses f ps → ps[41]? = some p → f.checksum = f.hum + f.tmp →
    runTrace (opTrace (frameOps a ps)) s = some
      ((if s.armed then [.out ⟨.incomplete, 0, 0, a⟩] else []) ++
        [.wd 200, .wd 0, .out ⟨.reading, f.hum, f.tmp, p.rise⟩],
      { armed := false, bit := 40, hum := f.hum, tmp := f.tmp, cs := f.checksum.setWidth 9,
        tref := p.fall, status := 1, resValid := true, resHum := f.hum, resTmp := f.tmp,
        resTime := p.rise, inputs := s.inputs,
        emitted := [.wd 0, .out ⟨.reading, f.hum, f.tmp, p.rise⟩] })

/-- R232, first half: a well-formed frame trace whose checksum byte is not the sum gives
`CHECKSUM_MISMATCH` with zeros, and leaves the result latch as it was. -/
def Obligations.WrongChecksumGivesAMismatch : Prop :=
  ∀ (s : State) (f : Frame) (a : Tick) (ps : List Pulse) (p : Pulse),
    WellFormedPulses f ps → ps[41]? = some p → f.checksum ≠ f.hum + f.tmp →
    ∃ t, runTrace (opTrace (frameOps a ps)) s = some
      ((if s.armed then [.out ⟨.incomplete, 0, 0, a⟩] else []) ++
        [.wd 200, .wd 0, .out ⟨.checksumMismatch, 0, 0, p.rise⟩], t) ∧
      t.armed = false ∧ t.status = 2 ∧ SameLatch s t

/-- R232, second half: flipping one bit of a frame whose sum holds breaks the sum exactly if the bit
stands in the humidity, temperature or checksum byte; a fraction bit leaves the sum and both data bytes
as they were. -/
def Obligations.OneFlippedBitBreaksTheSum : Prop :=
  ∀ (f : Frame) (i : Nat), i < 40 → f.checksum = f.hum + f.tmp →
    ((i < 8 ∨ (16 ≤ i ∧ i < 24) ∨ 32 ≤ i) → (f.flip i).checksum ≠ (f.flip i).hum + (f.flip i).tmp) ∧
    ((8 ≤ i ∧ i < 16) ∨ (24 ≤ i ∧ i < 32) →
      (f.flip i).checksum = (f.flip i).hum + (f.flip i).tmp ∧ (f.flip i).hum = f.hum ∧
      (f.flip i).tmp = f.tmp)

/-- R86, R230: `FRAME` after an `ARM` is a well-formed frame trace, for every frame and wherever its
cursor stands. -/
def Obligations.FramePseudoOperationIsWellFormed : Prop :=
  ∀ (t : Tick) (f : Frame), WellFormedPulses f (framePulses t f)

/-- R233: a `READING` is emitted only by a `RISE` taken while armed with the bit index at 39; so from a
state in which no cycle is in progress, or one is at its start, a trace of operations with fewer than
42 `RISE`s emits none. -/
def Obligations.ShortFrameNeverGivesAReading : Prop :=
  (∀ s i t o, EventStep s i t → .out o ∈ t.emitted → o.kind = .reading →
    isRise i = true ∧ s.armed = true ∧ s.index = 39) ∧
  (∀ (ops : List Instr) (s t : State) (outs : List Output), (s.armed = true → s.index = -2) →
    (ops.filter isRise).length < 42 → runTrace (opTrace ops) s = some (outs, t) →
    ∀ o, .out o ∈ outs → o.kind ≠ .reading)

/-- R132, R210 (and the last consequence of R105): a pulse of 200 ticks or more, at any bit index, and
then operations with no `ARM` and no hard resync among them, give no `READING`. -/
def Obligations.LongPulsePoisonsTheAttempt : Prop :=
  ∀ (s t : State) (τ : Tick) (ops : List Instr) (outs : List Output), s.armed = true → s.index ≤ 39 →
    200 ≤ elapsed s.tref τ → ops.filter isArm = [] → fallsClose s.tref ops →
    runTrace (opTrace (.rise τ :: ops)) s = some (outs, t) → ∀ o, .out o ∈ outs → o.kind ≠ .reading

/-- R29, R113: a hard resync leaves the FrameState that an `ARM` at the same tick leaves; but it emits
nothing and writes neither `armed`, nor `status`, nor the latch. -/
def Obligations.ResyncIsAFreshFrameInTheSameCycle : Prop :=
  ∀ (s : State) (τ : Tick), s.armed = true → 250000 < elapsed s.tref τ → ∃ t u,
    exec (.fall τ) s = .next t ∧ exec (.arm τ) s = .next u ∧ SameFrame t u ∧
    t.levels = s.levels ∧ t.emitted = s.emitted

/-- R117: edges that are no pulses. (a) Of two `FALL`s the second gap is measured from the first tick;
(b) of two `RISE`s both widths are measured from the same `tref`; (c) a `RISE` that is the first edge
after `ARM` is measured from the tick of the `ARM`. -/
def Obligations.EdgesNeedNotAlternate : Prop :=
  ∀ (s t u : State) (σ τ : Tick),
    (EventStep s (.fall σ) t → EventStep t (.fall τ) u → s.armed = true →
      u.index = if 250000 < elapsed σ τ then -2 else t.index) ∧
    (EventStep s (.rise σ) t → EventStep t (.rise τ) u → s.armed = true → s.index ≤ 37 →
      u.index = s.index + 2 ∧ u.hum = humAfter t (elapsed s.tref τ) ∧
      u.tmp = tmpAfter t (elapsed s.tref τ) ∧ u.cs = csAfter t (elapsed s.tref τ)) ∧
    (EventStep s (.arm σ) t → EventStep t (.rise τ) u →
      u.index = -1 ∧ u.cs = if 200 ≤ elapsed σ τ then 256 else 0)

/-- R167, R212: the last `RISE` and a `WDT`, close together. The `RISE` first: its verdict, and the `WDT`
only disarms; the `WDT` first: `TIMEOUT`, and the `RISE` is ignored. -/
def Obligations.TheOrderOfDeliveryDecides : Prop :=
  ∀ (s : State) (σ τ : Tick), s.armed = true → s.index = 39 →
    (∃ o t, runTrace (opTrace [.rise σ, .wdt τ]) s = some ([.wd 0, .out o, .wd 0], t) ∧
      (o.kind = .reading ∨ o.kind = .checksumMismatch) ∧ o.time = σ ∧ t.armed = false) ∧
    (∃ t, runTrace (opTrace [.wdt τ, .rise σ]) s = some ([.wd 0, .out ⟨.timeout, 0, 0, τ⟩], t) ∧
      t.armed = false ∧ t.status = 3 ∧ SameFrame s t)

/-- R234: two states in which no cycle is in progress answer a trace that begins with `ARM` with the
same outputs, and end alike in every register but possibly the result latch, which agrees too if it
agreed before or if the trace gave a `READING`; a cycle in progress adds its `INCOMPLETE` and nothing
else. -/
def Obligations.CyclesAreIndependent : Prop :=
  ∀ (s u : State) (a : Tick) (ops : List Instr), u.armed = false → ∃ outs t v,
    runTrace (opTrace (.arm a :: ops)) u = some (outs, v) ∧
    runTrace (opTrace (.arm a :: ops)) s = some
      ((if s.armed then [.out ⟨.incomplete, 0, 0, a⟩] else []) ++ outs, t) ∧
    t.armed = v.armed ∧ t.status = v.status ∧ SameFrame t v ∧
    ((SameLatch s u ∨ ∃ o, .out o ∈ outs ∧ o.kind = .reading) → SameLatch t v)

/-- R30, R202 (and U3 of spec/93_implementation_defined.md): while no cycle is in progress the FrameState
registers influence nothing: whatever they hold, every sequence of inputs, resets among them, gives
the same outputs, the same levels and the same inputs left over. -/
def Obligations.IdleFrameStateIsNeverSeen : Prop :=
  ∀ (s u : State) (ins : List Input), s.armed = false → AgreeOutsideFrame s u → ∃ outs t v,
    runTrace ins s = some (outs, t) ∧ runTrace ins u = some (outs, v) ∧ AgreeOutsideFrame t v

/-- R235: translation of time. Adding `k` to every tick of a trace that starts with `ARM` adds `k` to
the `time` of every outcome, to `tref`, and to `res_time` if the trace gave a `READING`, and changes
nothing else; a trace that starts with `RESET` likewise, with `tref` moved if an `ARM` is in it. The
rest of the trace has no further `RESET` in it (log 13). -/
def Obligations.TimeCanBeTranslated : Prop :=
  (∀ (k a : Tick) (ops : List Instr) (s t : State) (outs : List Output),
    runTrace (opTrace (.arm a :: ops)) s = some (outs, t) →
    ∃ last, runTrace (opTrace ((Instr.arm a :: ops).map (shiftOp k))) s = some
      (outs.map (Output.shift k),
      { t with
        tref := t.tref + k
        resTime := if ∃ o ∈ outcomes outs, o.kind = .reading then t.resTime + k else t.resTime
        emitted := last })) ∧
  (∀ (k : Tick) (ops : List Instr) (s t : State) (outs : List Output),
    runTrace (.reset :: opTrace ops) s = some (outs, t) →
    ∃ last, runTrace (.reset :: opTrace (ops.map (shiftOp k))) s = some
      (outs.map (Output.shift k),
      { t with
        tref := if ∃ i ∈ ops, isArm i = true then t.tref + k else t.tref
        resTime := if ∃ o ∈ outcomes outs, o.kind = .reading then t.resTime + k else t.resTime
        emitted := last }))

/-- R173, R237: exactly one outcome for every cycle: over any trace of operations, the outcomes emitted
and the cycle still open at the end together number the `ARM`s and the cycle open at the start. With no
`ARM` and no cycle open there is no outcome. -/
def Obligations.OneOutcomePerCycle : Prop :=
  ∀ (ops : List Instr) (s t : State) (outs : List Output),
    runTrace (opTrace ops) s = some (outs, t) →
    (outcomes outs).length + t.armed.toNat = (ops.filter isArm).length + s.armed.toNat ∧
    (s.armed = false → ops.filter isArm = [] → outcomes outs = [])

/-- R173, R181: a cycle in progress ends in any trace that holds a `WDT`, a `CANCEL` or another `ARM`:
an outcome is emitted no later than at that operation. -/
def Obligations.CycleEndsAtTheLatestAtWdtCancelOrArm : Prop :=
  ∀ (ops : List Instr) (i : Instr) (s t : State) (outs : List Output), s.armed = true →
    endsAnyCycle i = true → runTrace (opTrace (ops ++ [i])) s = some (outs, t) → outcomes outs ≠ []

/-- R238: failures leave the last good reading: a trace of operations that emits no `READING` ends with
the result latch it began with. -/
def Obligations.FailuresKeepTheLastReading : Prop :=
  ∀ (ops : List Instr) (s t : State) (outs : List Output),
    runTrace (opTrace ops) s = some (outs, t) → (∀ o, .out o ∈ outs → o.kind ≠ .reading) →
    SameLatch s t

/-- R35, R239: watchdog pairing. A step that clears `armed` emits `WD(0)`; only `ARM` emits `WD(200)`;
and over any trace of operations the last command tells whether a cycle is open: `armed` is the block's
belief about the watchdog. -/
def Obligations.WatchdogCommandsArePaired : Prop :=
  (∀ s i t, EventStep s i t →
    (s.armed = true → t.armed = false → .wd 0 ∈ t.emitted) ∧
    (.wd 200 ∈ t.emitted ↔ isArm i = true)) ∧
  (∀ (ops : List Instr) (s t : State) (outs : List Output),
    runTrace (opTrace ops) s = some (outs, t) →
    match (wdCommands outs).getLast? with
    | none => t.armed = s.armed
    | some ms => if t.armed then ms = 200 else ms = 0)

/-- R114, R208: edges that arrive before `ARM` leave no trace. -/
def Obligations.EdgesBeforeArmLeaveNoTrace : Prop :=
  ∀ (edges : List Instr) (a : Tick) (s : State), s.armed = false → (∀ i ∈ edges, isEdge i = true) →
    runTrace (opTrace (edges ++ [.arm a])) s = runTrace (opTrace [.arm a]) s

/-- R240: edges alone need not end a cycle: a `RISE` 150 ms after each `FALL` and a `FALL` another 150 ms
later keep it open for ever, with no output and the bit index back at -2 after each round. -/
def Obligations.EdgesAloneNeedNotEndACycle : Prop :=
  ∀ (n : Nat) (s : State), s.armed = true → s.index = -2 → ∃ t,
    runTrace (opTrace (stalledEdges s.tref n)) s = some ([], t) ∧ t.armed = true ∧ t.index = -2
end

