-- ==== Sys2Proof/Laws/State.lean ====
section
/-! SUPPORT. One lemma per field per update of State, so that no later proof unfolds a record update. -/

namespace Sys2Proof.Machine

variable (s : State)

/-! ### present -/

@[simp] theorem State.present_armed (i : Input) : (s.present i).armed = s.armed := rfl
@[simp] theorem State.present_bit (i : Input) : (s.present i).bit = s.bit := rfl
@[simp] theorem State.present_hum (i : Input) : (s.present i).hum = s.hum := rfl
@[simp] theorem State.present_tmp (i : Input) : (s.present i).tmp = s.tmp := rfl
@[simp] theorem State.present_cs (i : Input) : (s.present i).cs = s.cs := rfl
@[simp] theorem State.present_tref (i : Input) : (s.present i).tref = s.tref := rfl
@[simp] theorem State.present_status (i : Input) : (s.present i).status = s.status := rfl
@[simp] theorem State.present_resValid (i : Input) : (s.present i).resValid = s.resValid := rfl
@[simp] theorem State.present_resHum (i : Input) : (s.present i).resHum = s.resHum := rfl
@[simp] theorem State.present_resTmp (i : Input) : (s.present i).resTmp = s.resTmp := rfl
@[simp] theorem State.present_resTime (i : Input) : (s.present i).resTime = s.resTime := rfl
@[simp] theorem State.present_inputs (i : Input) : (s.present i).inputs = i :: s.inputs := rfl
@[simp] theorem State.present_emitted (i : Input) : (s.present i).emitted = s.emitted := rfl

/-! ### accept -/

@[simp] theorem State.accept_armed (rest : List Input) : (s.accept rest).armed = s.armed := rfl
@[simp] theorem State.accept_bit (rest : List Input) : (s.accept rest).bit = s.bit := rfl
@[simp] theorem State.accept_hum (rest : List Input) : (s.accept rest).hum = s.hum := rfl
@[simp] theorem State.accept_tmp (rest : List Input) : (s.accept rest).tmp = s.tmp := rfl
@[simp] theorem State.accept_cs (rest : List Input) : (s.accept rest).cs = s.cs := rfl
@[simp] theorem State.accept_tref (rest : List Input) : (s.accept rest).tref = s.tref := rfl
@[simp] theorem State.accept_status (rest : List Input) : (s.accept rest).status = s.status := rfl
@[simp] theorem State.accept_resValid (rest : List Input) : (s.accept rest).resValid = s.resValid := rfl
@[simp] theorem State.accept_resHum (rest : List Input) : (s.accept rest).resHum = s.resHum := rfl
@[simp] theorem State.accept_resTmp (rest : List Input) : (s.accept rest).resTmp = s.resTmp := rfl
@[simp] theorem State.accept_resTime (rest : List Input) : (s.accept rest).resTime = s.resTime := rfl
@[simp] theorem State.accept_inputs (rest : List Input) : (s.accept rest).inputs = rest := rfl
@[simp] theorem State.accept_emitted (rest : List Input) : (s.accept rest).emitted = [] := rfl

/-! ### wait -/

@[simp] theorem State.wait_armed : (s.wait).armed = s.armed := rfl
@[simp] theorem State.wait_bit : (s.wait).bit = s.bit := rfl
@[simp] theorem State.wait_hum : (s.wait).hum = s.hum := rfl
@[simp] theorem State.wait_tmp : (s.wait).tmp = s.tmp := rfl
@[simp] theorem State.wait_cs : (s.wait).cs = s.cs := rfl
@[simp] theorem State.wait_tref : (s.wait).tref = s.tref := rfl
@[simp] theorem State.wait_status : (s.wait).status = s.status := rfl
@[simp] theorem State.wait_resValid : (s.wait).resValid = s.resValid := rfl
@[simp] theorem State.wait_resHum : (s.wait).resHum = s.resHum := rfl
@[simp] theorem State.wait_resTmp : (s.wait).resTmp = s.resTmp := rfl
@[simp] theorem State.wait_resTime : (s.wait).resTime = s.resTime := rfl
@[simp] theorem State.wait_inputs : (s.wait).inputs = s.inputs := rfl
@[simp] theorem State.wait_emitted : (s.wait).emitted = [] := rfl

/-! ### emitWd -/

@[simp] theorem State.emitWd_armed (ms : WdCommand) : (s.emitWd ms).armed = s.armed := rfl
@[simp] theorem State.emitWd_bit (ms : WdCommand) : (s.emitWd ms).bit = s.bit := rfl
@[simp] theorem State.emitWd_hum (ms : WdCommand) : (s.emitWd ms).hum = s.hum := rfl
@[simp] theorem State.emitWd_tmp (ms : WdCommand) : (s.emitWd ms).tmp = s.tmp := rfl
@[simp] theorem State.emitWd_cs (ms : WdCommand) : (s.emitWd ms).cs = s.cs := rfl
@[simp] theorem State.emitWd_tref (ms : WdCommand) : (s.emitWd ms).tref = s.tref := rfl
@[simp] theorem State.emitWd_status (ms : WdCommand) : (s.emitWd ms).status = s.status := rfl
@[simp] theorem State.emitWd_resValid (ms : WdCommand) : (s.emitWd ms).resValid = s.resValid := rfl
@[simp] theorem State.emitWd_resHum (ms : WdCommand) : (s.emitWd ms).resHum = s.resHum := rfl
@[simp] theorem State.emitWd_resTmp (ms : WdCommand) : (s.emitWd ms).resTmp = s.resTmp := rfl
@[simp] theorem State.emitWd_resTime (ms : WdCommand) : (s.emitWd ms).resTime = s.resTime := rfl
@[simp] theorem State.emitWd_inputs (ms : WdCommand) : (s.emitWd ms).inputs = s.inputs := rfl
@[simp] theorem State.emitWd_emitted (ms : WdCommand) : (s.emitWd ms).emitted = s.emitted ++ [.wd ms] := rfl

/-! ### emitOut -/

@[simp] theorem State.emitOut_armed (k : OutcomeKind) (h u : Byte) (τ : Tick) : (s.emitOut k h u τ).armed = s.armed := rfl
@[simp] theorem State.emitOut_bit (k : OutcomeKind) (h u : Byte) (τ : Tick) : (s.emitOut k h u τ).bit = s.bit := rfl
@[simp] theorem State.emitOut_hum (k : OutcomeKind) (h u : Byte) (τ : Tick) : (s.emitOut k h u τ).hum = s.hum := rfl
@[simp] theorem State.emitOut_tmp (k : OutcomeKind) (h u : Byte) (τ : Tick) : (s.emitOut k h u τ).tmp = s.tmp := rfl
@[simp] theorem State.emitOut_cs (k : OutcomeKind) (h u : Byte) (τ : Tick) : (s.emitOut k h u τ).cs = s.cs := rfl
@[simp] theorem State.emitOut_tref (k : OutcomeKind) (h u : Byte) (τ : Tick) : (s.emitOut k h u τ).tref = s.tref := rfl
@[simp] theorem State.emitOut_status (k : OutcomeKind) (h u : Byte) (τ : Tick) : (s.emitOut k h u τ).status = s.status := rfl
@[simp] theorem State.emitOut_resValid (k : OutcomeKind) (h u : Byte) (τ : Tick) : (s.emitOut k h u τ).resValid = s.resValid := rfl
@[simp] theorem State.emitOut_resHum (k : OutcomeKind) (h u : Byte) (τ : Tick) : (s.emitOut k h u τ).resHum = s.resHum := rfl
@[simp] theorem State.emitOut_resTmp (k : OutcomeKind) (h u : Byte) (τ : Tick) : (s.emitOut k h u τ).resTmp = s.resTmp := rfl
@[simp] theorem State.emitOut_resTime (k : OutcomeKind) (h u : Byte) (τ : Tick) : (s.emitOut k h u τ).resTime = s.resTime := rfl
@[simp] theorem State.emitOut_inputs (k : OutcomeKind) (h u : Byte) (τ : Tick) : (s.emitOut k h u τ).inputs = s.inputs := rfl
@[simp] theorem State.emitOut_emitted (k : OutcomeKind) (h u : Byte) (τ : Tick) : (s.emitOut k h u τ).emitted = s.emitted ++ [.out ⟨k, h, u, τ⟩] := rfl

/-! ### clearFrame -/

@[simp] theorem State.clearFrame_armed : (s.clearFrame).armed = s.armed := rfl
@[simp] theorem State.clearFrame_bit : (s.clearFrame).bit = -2 := rfl
@[simp] theorem State.clearFrame_hum : (s.clearFrame).hum = 0 := rfl
@[simp] theorem State.clearFrame_tmp : (s.clearFrame).tmp = 0 := rfl
@[simp] theorem State.clearFrame_cs : (s.clearFrame).cs = 0 := rfl
@[simp] theorem State.clearFrame_tref : (s.clearFrame).tref = s.tref := rfl
@[simp] theorem State.clearFrame_status : (s.clearFrame).status = s.status := rfl
@[simp] theorem State.clearFrame_resValid : (s.clearFrame).resValid = s.resValid := rfl
@[simp] theorem State.clearFrame_resHum : (s.clearFrame).resHum = s.resHum := rfl
@[simp] theorem State.clearFrame_resTmp : (s.clearFrame).resTmp = s.resTmp := rfl
@[simp] theorem State.clearFrame_resTime : (s.clearFrame).resTime = s.resTime := rfl
@[simp] theorem State.clearFrame_inputs : (s.clearFrame).inputs = s.inputs := rfl
@[simp] theorem State.clearFrame_emitted : (s.clearFrame).emitted = s.emitted := rfl

/-! ### advance -/

@[simp] theorem State.advance_armed : (s.advance).armed = s.armed := rfl
@[simp] theorem State.advance_bit : (s.advance).bit = s.bit + 1 := rfl
@[simp] theorem State.advance_hum : (s.advance).hum = s.hum := rfl
@[simp] theorem State.advance_tmp : (s.advance).tmp = s.tmp := rfl
@[simp] theorem State.advance_cs : (s.advance).cs = s.cs := rfl
@[simp] theorem State.advance_tref : (s.advance).tref = s.tref := rfl
@[simp] theorem State.advance_status : (s.advance).status = s.status := rfl
@[simp] theorem State.advance_resValid : (s.advance).resValid = s.resValid := rfl
@[simp] theorem State.advance_resHum : (s.advance).resHum = s.resHum := rfl
@[simp] theorem State.advance_resTmp : (s.advance).resTmp = s.resTmp := rfl
@[simp] theorem State.advance_resTime : (s.advance).resTime = s.resTime := rfl
@[simp] theorem State.advance_inputs : (s.advance).inputs = s.inputs := rfl
@[simp] theorem State.advance_emitted : (s.advance).emitted = s.emitted := rfl

/-! ### startCycle -/

@[simp] theorem State.startCycle_armed (τ : Tick) : (s.startCycle τ).armed = true := rfl
@[simp] theorem State.startCycle_bit (τ : Tick) : (s.startCycle τ).bit = -2 := rfl
@[simp] theorem State.startCycle_hum (τ : Tick) : (s.startCycle τ).hum = 0 := rfl
@[simp] theorem State.startCycle_tmp (τ : Tick) : (s.startCycle τ).tmp = 0 := rfl
@[simp] theorem State.startCycle_cs (τ : Tick) : (s.startCycle τ).cs = 0 := rfl
@[simp] theorem State.startCycle_tref (τ : Tick) : (s.startCycle τ).tref = τ := rfl
@[simp] theorem State.startCycle_status (τ : Tick) : (s.startCycle τ).status = 0 := rfl
@[simp] theorem State.startCycle_resValid (τ : Tick) : (s.startCycle τ).resValid = s.resValid := rfl
@[simp] theorem State.startCycle_resHum (τ : Tick) : (s.startCycle τ).resHum = s.resHum := rfl
@[simp] theorem State.startCycle_resTmp (τ : Tick) : (s.startCycle τ).resTmp = s.resTmp := rfl
@[simp] theorem State.startCycle_resTime (τ : Tick) : (s.startCycle τ).resTime = s.resTime := rfl
@[simp] theorem State.startCycle_inputs (τ : Tick) : (s.startCycle τ).inputs = s.inputs := rfl
@[simp] theorem State.startCycle_emitted (τ : Tick) : (s.startCycle τ).emitted = s.emitted ++ [.wd 200] := rfl

/-! ### recordFall -/

@[simp] theorem State.recordFall_armed (τ : Tick) : (s.recordFall τ).armed = s.armed := by
  unfold State.recordFall; split <;> rfl
@[simp] theorem State.recordFall_status (τ : Tick) : (s.recordFall τ).status = s.status := by
  unfold State.recordFall; split <;> rfl
@[simp] theorem State.recordFall_resValid (τ : Tick) : (s.recordFall τ).resValid = s.resValid := by
  unfold State.recordFall; split <;> rfl
@[simp] theorem State.recordFall_resHum (τ : Tick) : (s.recordFall τ).resHum = s.resHum := by
  unfold State.recordFall; split <;> rfl
@[simp] theorem State.recordFall_resTmp (τ : Tick) : (s.recordFall τ).resTmp = s.resTmp := by
  unfold State.recordFall; split <;> rfl
@[simp] theorem State.recordFall_resTime (τ : Tick) : (s.recordFall τ).resTime = s.resTime := by
  unfold State.recordFall; split <;> rfl
@[simp] theorem State.recordFall_inputs (τ : Tick) : (s.recordFall τ).inputs = s.inputs := by
  unfold State.recordFall; split <;> rfl
@[simp] theorem State.recordFall_emitted (τ : Tick) : (s.recordFall τ).emitted = s.emitted := by
  unfold State.recordFall; split <;> rfl
@[simp] theorem State.recordFall_tref (τ : Tick) : (s.recordFall τ).tref = τ := rfl

/-! ### markSync -/

@[simp] theorem State.markSync_armed (b : Bool) : (s.markSync b).armed = s.armed := by
  unfold State.markSync; split <;> rfl
@[simp] theorem State.markSync_bit (b : Bool) : (s.markSync b).bit = s.bit := by
  unfold State.markSync; split <;> rfl
@[simp] theorem State.markSync_hum (b : Bool) : (s.markSync b).hum = s.hum := by
  unfold State.markSync; split <;> rfl
@[simp] theorem State.markSync_tmp (b : Bool) : (s.markSync b).tmp = s.tmp := by
  unfold State.markSync; split <;> rfl
@[simp] theorem State.markSync_tref (b : Bool) : (s.markSync b).tref = s.tref := by
  unfold State.markSync; split <;> rfl
@[simp] theorem State.markSync_status (b : Bool) : (s.markSync b).status = s.status := by
  unfold State.markSync; split <;> rfl
@[simp] theorem State.markSync_resValid (b : Bool) : (s.markSync b).resValid = s.resValid := by
  unfold State.markSync; split <;> rfl
@[simp] theorem State.markSync_resHum (b : Bool) : (s.markSync b).resHum = s.resHum := by
  unfold State.markSync; split <;> rfl
@[simp] theorem State.markSync_resTmp (b : Bool) : (s.markSync b).resTmp = s.resTmp := by
  unfold State.markSync; split <;> rfl
@[simp] theorem State.markSync_resTime (b : Bool) : (s.markSync b).resTime = s.resTime := by
  unfold State.markSync; split <;> rfl
@[simp] theorem State.markSync_inputs (b : Bool) : (s.markSync b).inputs = s.inputs := by
  unfold State.markSync; split <;> rfl
@[simp] theorem State.markSync_emitted (b : Bool) : (s.markSync b).emitted = s.emitted := by
  unfold State.markSync; split <;> rfl

/-! ### foldBit -/

@[simp] theorem State.foldBit_armed (b : Bool) : (s.foldBit b).armed = s.armed := by
  unfold State.foldBit; split <;> rfl
@[simp] theorem State.foldBit_bit (b : Bool) : (s.foldBit b).bit = s.bit := by
  unfold State.foldBit; split <;> rfl
@[simp] theorem State.foldBit_tref (b : Bool) : (s.foldBit b).tref = s.tref := by
  unfold State.foldBit; split <;> rfl
@[simp] theorem State.foldBit_status (b : Bool) : (s.foldBit b).status = s.status := by
  unfold State.foldBit; split <;> rfl
@[simp] theorem State.foldBit_resValid (b : Bool) : (s.foldBit b).resValid = s.resValid := by
  unfold State.foldBit; split <;> rfl
@[simp] theorem State.foldBit_resHum (b : Bool) : (s.foldBit b).resHum = s.resHum := by
  unfold State.foldBit; split <;> rfl
@[simp] theorem State.foldBit_resTmp (b : Bool) : (s.foldBit b).resTmp = s.resTmp := by
  unfold State.foldBit; split <;> rfl
@[simp] theorem State.foldBit_resTime (b : Bool) : (s.foldBit b).resTime = s.resTime := by
  unfold State.foldBit; split <;> rfl
@[simp] theorem State.foldBit_inputs (b : Bool) : (s.foldBit b).inputs = s.inputs := by
  unfold State.foldBit; split <;> rfl
@[simp] theorem State.foldBit_emitted (b : Bool) : (s.foldBit b).emitted = s.emitted := by
  unfold State.foldBit; split <;> rfl

/-! ### latch -/

@[simp] theorem State.latch_armed (k : OutcomeKind) (h u : Byte) (τ : Tick) : (s.latch k h u τ).armed = s.armed := by
  unfold State.latch; split <;> rfl
@[simp] theorem State.latch_bit (k : OutcomeKind) (h u : Byte) (τ : Tick) : (s.latch k h u τ).bit = s.bit := by
  unfold State.latch; split <;> rfl
@[simp] theorem State.latch_hum (k : OutcomeKind) (h u : Byte) (τ : Tick) : (s.latch k h u τ).hum = s.hum := by
  unfold State.latch; split <;> rfl
@[simp] theorem State.latch_tmp (k : OutcomeKind) (h u : Byte) (τ : Tick) : (s.latch k h u τ).tmp = s.tmp := by
  unfold State.latch; split <;> rfl
@[simp] theorem State.latch_cs (k : OutcomeKind) (h u : Byte) (τ : Tick) : (s.latch k h u τ).cs = s.cs := by
  unfold State.latch; split <;> rfl
@[simp] theorem State.latch_tref (k : OutcomeKind) (h u : Byte) (τ : Tick) : (s.latch k h u τ).tref = s.tref := by
  unfold State.latch; split <;> rfl
@[simp] theorem State.latch_status (k : OutcomeKind) (h u : Byte) (τ : Tick) : (s.latch k h u τ).status = s.status := by
  unfold State.latch; split <;> rfl
@[simp] theorem State.latch_inputs (k : OutcomeKind) (h u : Byte) (τ : Tick) : (s.latch k h u τ).inputs = s.inputs := by
  unfold State.latch; split <;> rfl
@[simp] theorem State.latch_emitted (k : OutcomeKind) (h u : Byte) (τ : Tick) : (s.latch k h u τ).emitted = s.emitted := by
  unfold State.latch; split <;> rfl

/-! ### endCycle -/

@[simp] theorem State.endCycle_bit (k : OutcomeKind) (h u : Byte) (τ : Tick) : (s.endCycle k h u τ).bit = s.bit := by
  simp [State.endCycle]
@[simp] theorem State.endCycle_hum (k : OutcomeKind) (h u : Byte) (τ : Tick) : (s.endCycle k h u τ).hum = s.hum := by
  simp [State.endCycle]
@[simp] theorem State.endCycle_tmp (k : OutcomeKind) (h u : Byte) (τ : Tick) : (s.endCycle k h u τ).tmp = s.tmp := by
  simp [State.endCycle]
@[simp] theorem State.endCycle_cs (k : OutcomeKind) (h u : Byte) (τ : Tick) : (s.endCycle k h u τ).cs = s.cs := by
  simp [State.endCycle]
@[simp] theorem State.endCycle_tref (k : OutcomeKind) (h u : Byte) (τ : Tick) : (s.endCycle k h u τ).tref = s.tref := by
  simp [State.endCycle]
@[simp] theorem State.endCycle_inputs (k : OutcomeKind) (h u : Byte) (τ : Tick) : (s.endCycle k h u τ).inputs = s.inputs := by
  simp [State.endCycle]
@[simp] theorem State.endCycle_armed (k : OutcomeKind) (h u : Byte) (τ : Tick) : (s.endCycle k h u τ).armed = false := by
  simp [State.endCycle]
@[simp] theorem State.endCycle_status (k : OutcomeKind) (h u : Byte) (τ : Tick) : (s.endCycle k h u τ).status = k.code := by
  simp [State.endCycle]
@[simp] theorem State.endCycle_emitted (k : OutcomeKind) (h u : Byte) (τ : Tick) :
    (s.endCycle k h u τ).emitted = s.emitted ++ [.wd 0, .out ⟨k, h, u, τ⟩] := by
  simp [State.endCycle, Config.wdDisarm]

/-! ### abandon -/

@[simp] theorem State.abandon_armed (τ : Tick) : (s.abandon τ).armed = s.armed := by
  unfold State.abandon; split <;> rfl
@[simp] theorem State.abandon_bit (τ : Tick) : (s.abandon τ).bit = s.bit := by
  unfold State.abandon; split <;> rfl
@[simp] theorem State.abandon_hum (τ : Tick) : (s.abandon τ).hum = s.hum := by
  unfold State.abandon; split <;> rfl
@[simp] theorem State.abandon_tmp (τ : Tick) : (s.abandon τ).tmp = s.tmp := by
  unfold State.abandon; split <;> rfl
@[simp] theorem State.abandon_cs (τ : Tick) : (s.abandon τ).cs = s.cs := by
  unfold State.abandon; split <;> rfl
@[simp] theorem State.abandon_tref (τ : Tick) : (s.abandon τ).tref = s.tref := by
  unfold State.abandon; split <;> rfl
@[simp] theorem State.abandon_status (τ : Tick) : (s.abandon τ).status = s.status := by
  unfold State.abandon; split <;> rfl
@[simp] theorem State.abandon_resValid (τ : Tick) : (s.abandon τ).resValid = s.resValid := by
  unfold State.abandon; split <;> rfl
@[simp] theorem State.abandon_resHum (τ : Tick) : (s.abandon τ).resHum = s.resHum := by
  unfold State.abandon; split <;> rfl
@[simp] theorem State.abandon_resTmp (τ : Tick) : (s.abandon τ).resTmp = s.resTmp := by
  unfold State.abandon; split <;> rfl
@[simp] theorem State.abandon_resTime (τ : Tick) : (s.abandon τ).resTime = s.resTime := by
  unfold State.abandon; split <;> rfl
@[simp] theorem State.abandon_inputs (τ : Tick) : (s.abandon τ).inputs = s.inputs := by
  unfold State.abandon; split <;> rfl
@[simp] theorem State.abandon_emitted (τ : Tick) : (s.abandon τ).emitted =
    s.emitted ++ (if s.armed then [.out ⟨.incomplete, 0, 0, τ⟩] else []) := by
  unfold State.abandon; split <;> simp_all

/-! ### the index is the bit register's -/

@[simp] theorem State.present_index (i : Input) : (s.present i).index = s.index := rfl
@[simp] theorem State.accept_index (rest : List Input) : (s.accept rest).index = s.index := rfl
@[simp] theorem State.clearFrame_index : s.clearFrame.index = -2 := by
  simp [State.index]
@[simp] theorem State.startCycle_index (τ : Tick) : (s.startCycle τ).index = -2 := by
  simp [State.index]
@[simp] theorem State.markSync_index (b : Bool) : (s.markSync b).index = s.index := by
  simp [State.index]
@[simp] theorem State.endCycle_index (k : OutcomeKind) (h u : Byte) (τ : Tick) :
    (s.endCycle k h u τ).index = s.index := by
  simp [State.index]

end Sys2Proof.Machine
end

