-- ==== Sys2Proof/Laws/Words.lean ====
section
/-! SUPPORT. The parts of an operation as arithmetic on numbers, and the decoder and encoder. -/

namespace Sys2Proof.Machine

/-! ## Ticks -/

theorem tickDelta_toNat (a b : Tick) : (tickDelta a b).toNat = elapsed a b := by
  unfold tickDelta elapsed
  rw [BitVec.toNat_sub]
  have ha := a.isLt
  congr 1
  omega

theorem tickDelta_add_right (a b k : Tick) : tickDelta (a + k) (b + k) = tickDelta a b := by
  unfold tickDelta
  bv_omega

theorem pulseBit_eq (d : Tick) : pulseBit d = decide (50 ≤ d.toNat) := by
  simp [pulseBit, Config.tBit, BitVec.le_def]

theorem pulseSync_eq (d : Tick) : pulseSync d = decide (200 ≤ d.toNat) := by
  simp [pulseSync, Config.tSync, BitVec.le_def]

theorem idleGap_eq (d : Tick) : idleGap d = decide (250000 < d.toNat) := by
  simp [idleGap, Config.tIdle, BitVec.lt_def]

theorem pulseValue_eq (d : Nat) : pulseValue d = (decide (50 ≤ d)).toNat := by
  unfold pulseValue
  split <;> rename_i h
  · simp [show ¬ 50 ≤ d by omega]
  · simp [show 50 ≤ d by omega]

/-! ## The bit index -/

theorem index_succ (b : BitIndex) (h : b.toInt ≤ 39) : (b + 1).toInt = b.toInt + 1 := by
  revert b; decide

theorem bit_succ_eq (b : BitIndex) (h : b.toInt ≤ 39) : b + 1 = BitVec.ofInt 7 (b.toInt + 1) := by
  revert b; decide

theorem bit_eq_of_index (b : BitIndex) (k : Int) (h : b.toInt = k) : b = BitVec.ofInt 7 k := by
  subst h; simp

theorem window_has (w : Config.Window) (i : Int) : w.has i = true ↔ w.first ≤ i ∧ i ≤ w.last := by
  simp [Config.Window.has]

/-- The frame layout of R51, boundary by boundary. -/
theorem ofIndex_eq (i : Int) : FrameField.ofIndex i =
    if i < 0 then .preamble else if i ≤ 7 then .humidity else if i ≤ 15 then .humidityFraction
    else if i ≤ 23 then .temperature else if i ≤ 31 then .temperatureFraction
    else if i ≤ 39 then .checksum else .complete := by
  unfold FrameField.ofIndex
  simp only [window_has, Config.wHum, Config.wHumF, Config.wTmp, Config.wTmpF, Config.wCs]
  split_ifs <;> first | rfl | omega

theorem ofIndex_preamble (i : Int) : FrameField.ofIndex i = .preamble ↔ i < 0 := by
  rw [ofIndex_eq]; split_ifs <;> simp <;> omega

theorem ofIndex_humidity (i : Int) : FrameField.ofIndex i = .humidity ↔ 0 ≤ i ∧ i ≤ 7 := by
  rw [ofIndex_eq]; split_ifs <;> simp <;> omega

theorem ofIndex_temperature (i : Int) : FrameField.ofIndex i = .temperature ↔ 16 ≤ i ∧ i ≤ 23 := by
  rw [ofIndex_eq]; split_ifs <;> simp <;> omega

theorem ofIndex_checksum (i : Int) : FrameField.ofIndex i = .checksum ↔ 32 ≤ i ∧ i ≤ 39 := by
  rw [ofIndex_eq]; split_ifs <;> simp <;> omega

theorem ofIndex_complete (i : Int) : FrameField.ofIndex i = .complete ↔ 40 ≤ i := by
  rw [ofIndex_eq]; split_ifs <;> simp <;> omega

/-- The positions whose bit is dropped (R107). -/
theorem ofIndex_dropped (i : Int) (h : i ≤ 39) (h1 : ¬ (0 ≤ i ∧ i ≤ 7)) (h2 : ¬ (16 ≤ i ∧ i ≤ 23))
    (h3 : ¬ (32 ≤ i ∧ i ≤ 39)) : FrameField.ofIndex i = .preamble ∨
      FrameField.ofIndex i = .humidityFraction ∨ FrameField.ofIndex i = .temperatureFraction := by
  rw [ofIndex_eq]; split_ifs <;> simp <;> omega

/-! ## The folds -/

theorem fold8_eq (acc : Byte) (b : Bool) : fold8 acc b = BitVec.ofNat 8 (2 * acc.toNat + b.toNat) := by
  revert acc b; decide

theorem foldCs_eq (cs : Checksum) (b : Bool) :
    foldCs cs b = BitVec.ofNat 9 (cs.toNat / 256 * 256 + (2 * cs.toNat + b.toNat) % 256) := by
  revert cs b; decide

theorem foldCs_toNat (cs : Checksum) (b : Bool) :
    (foldCs cs b).toNat = cs.toNat / 256 * 256 + (2 * cs.toNat + b.toNat) % 256 := by
  have := cs.isLt
  rw [foldCs_eq, BitVec.toNat_ofNat]
  omega

theorem sentinelFlag_eq (cs : Checksum) : sentinelFlag cs = decide (256 ≤ cs.toNat) := by
  revert cs; decide

/-! ## The validator -/

theorem checksumValid_iff (h u : Byte) (c : Checksum) :
    checksumValid h u c = true ↔ c.toNat = (h.toNat + u.toNat) % 256 := by
  have hb : (checksumByte c).toNat = c.toNat % 256 := by simp [checksumByte]
  have := c.isLt
  simp only [checksumValid, checksumSum, sentinelFlag_eq, Bool.and_eq_true, Bool.not_eq_true',
    decide_eq_false_iff_not, beq_iff_eq, ← BitVec.toNat_inj, hb, BitVec.toNat_add]
  omega

theorem validate_valid {h u : Byte} {c : Checksum} (e : c.toNat = (h.toNat + u.toNat) % 256) :
    validate h u c = (.reading, h, u) := by
  simp [validate, (checksumValid_iff h u c).2 e]

theorem validate_invalid {h u : Byte} {c : Checksum} (e : c.toNat ≠ (h.toNat + u.toNat) % 256) :
    validate h u c = (.checksumMismatch, 0, 0) := by
  simp [validate, mt (checksumValid_iff h u c).1 e]

/-! ## The decoder and the encoder -/

theorem tickField_append (c : BitVec 3) (τ : Tick) : tickField (c ++ τ) = τ := by
  ext i hi
  simp only [tickField, BitVec.getElem_extractLsb', BitVec.getLsbD_append]
  simp [hi]

theorem opBit_append (c : BitVec 3) (τ : Tick) (k : Nat) :
    (c ++ τ).getLsbD (32 + k) = c.getLsbD k := by
  rw [BitVec.getLsbD_append]
  simp

/-- What the decoder reads from a code and a tick laid out as R71 says. -/
theorem decode_append (c : BitVec 3) (τ : Tick) : decode (c ++ τ) =
    match c.getLsbD 2, c.getLsbD 1, c.getLsbD 0 with
    | false, false, false => .fall τ
    | false, false, true => .rise τ
    | false, true, false => .wdt τ
    | false, true, true => .arm τ
    | true, false, false => .cancel τ
    | true, false, true => .rsv5 τ
    | true, true, false => .rsv6 τ
    | true, true, true => .rsv7 τ := by
  have h2 : (c ++ τ).getLsbD 34 = c.getLsbD 2 := opBit_append c τ 2
  have h1 : (c ++ τ).getLsbD 33 = c.getLsbD 1 := opBit_append c τ 1
  have h0 : (c ++ τ).getLsbD 32 = c.getLsbD 0 := opBit_append c τ 0
  unfold decode
  rw [h2, h1, h0, tickField_append] <;> rfl

theorem decode_encode (i : Instr) : decode (encode i) = i := by
  cases i <;> (simp only [encode, Instr.opcode, Instr.tick, decode_append]; rfl)

end Sys2Proof.Machine
end

