-- ==== Sys2Proof/Laws/Exec.lean ====
section
/-! SUPPORT. What each operation does, said once: every meaning answers a next state, and that state in
numbers. The provers cite these and unfold no meaning. -/

namespace Sys2Proof.Machine

/-- The state an operation leaves; `exec_eq` says that it is the answer of `exec`. -/
def afterOp : Instr → State → State
  | .fall τ, s => if s.armed then s.recordFall τ else s
  | .rise τ, s => if s.armed ∧ s.index ≤ 39 then s.measureRise τ else s
  | .wdt τ, s => if s.armed then s.endCycle .timeout 0 0 τ else s.emitWd Config.wdDisarm
  | .arm τ, s => (s.abandon τ).startCycle τ
  | .cancel τ, s => if s.armed then s.endCycle .incomplete 0 0 τ else s.emitWd Config.wdDisarm
  | .rsv5 _, s => s
  | .rsv6 _, s => s
  | .rsv7 _, s => s

theorem exec_eq (i : Instr) (s : State) : exec i s = .next (afterOp i s) := by cases i <;> rfl

/-! ## FALL -/

theorem recordFall_short {s : State} {τ : Tick} (h : elapsed s.tref τ ≤ 250000) :
    s.recordFall τ = { s with tref := τ } := by
  have : idleGap (tickDelta s.tref τ) = false := by
    rw [idleGap_eq, tickDelta_toNat]; simpa using h
  simp [State.recordFall, this]

theorem recordFall_long {s : State} {τ : Tick} (h : 250000 < elapsed s.tref τ) :
    s.recordFall τ = { s with bit := -2, hum := 0, tmp := 0, cs := 0, tref := τ } := by
  have : idleGap (tickDelta s.tref τ) = true := by
    rw [idleGap_eq, tickDelta_toNat]; simpa using h
  simp [State.recordFall, this, State.clearFrame, Config.preFrame]

/-! ## RISE -/

theorem markSync_eq (s : State) (d : Nat) :
    s.markSync (decide (200 ≤ d)) = { s with cs := BitVec.ofNat 9 (csMarked s d) } := by
  unfold State.markSync csMarked
  by_cases h2 : 200 ≤ d <;> simp [h2, Config.csSentinel]

theorem csMarked_lt (s : State) (d : Nat) : csMarked s d < 512 := by
  unfold csMarked
  have := s.cs.isLt
  split <;> omega

/-- The sentinel, then the fold, in numbers: R112 (3) and (4). -/
theorem foldBit_eq (s : State) (d : Nat) (h : s.index ≤ 39) :
    (s.markSync (decide (200 ≤ d))).foldBit (decide (50 ≤ d)) =
      { s with
        hum := humAfter s d
        tmp := tmpAfter s d
        cs := csAfter s d } := by
  have hfold : foldCs (BitVec.ofNat 9 (csMarked s d)) (decide (50 ≤ d)) =
      BitVec.ofNat 9 (csMarked s d / 256 * 256 + (2 * csMarked s d + pulseValue d) % 256) := by
    rw [foldCs_eq, BitVec.toNat_ofNat, Nat.mod_eq_of_lt (csMarked_lt s d), pulseValue_eq]
  have hi : ∀ c : Checksum, State.index { s with cs := c } = s.index := fun _ => rfl
  rw [markSync_eq]
  unfold State.foldBit humAfter tmpAfter csAfter
  rw [hi]
  by_cases h1 : 0 ≤ s.index ∧ s.index ≤ 7
  · rw [(ofIndex_humidity s.index).2 h1, if_pos h1, if_neg (by omega), if_neg (by omega)]
    simp only [fold8_eq, pulseValue_eq]
  by_cases h2 : 16 ≤ s.index ∧ s.index ≤ 23
  · rw [(ofIndex_temperature s.index).2 h2, if_neg h1, if_pos h2, if_neg (by omega)]
    simp only [fold8_eq, pulseValue_eq]
  by_cases h3 : 32 ≤ s.index ∧ s.index ≤ 39
  · rw [(ofIndex_checksum s.index).2 h3, if_neg h1, if_neg h2, if_pos h3]
    simp only [hfold]
  · rw [if_neg h1, if_neg h2, if_neg h3]
    rcases ofIndex_dropped s.index h h1 h2 h3 with e | e | e <;> rw [e]

/-- The registers of a `RISE` before completion is looked at: R112 (1) to (5). -/
theorem collect_eq {s : State} {τ : Tick} (h : s.index ≤ 39) :
    ((s.markSync (pulseSync (tickDelta s.tref τ))).foldBit (pulseBit (tickDelta s.tref τ))).advance =
      { s with
        bit := s.bit + 1
        hum := humAfter s (elapsed s.tref τ)
        tmp := tmpAfter s (elapsed s.tref τ)
        cs := csAfter s (elapsed s.tref τ) } := by
  rw [pulseBit_eq, pulseSync_eq, tickDelta_toNat]
  generalize elapsed s.tref τ = d
  rw [foldBit_eq s d h]
  rfl

theorem bit_succ_ne {b : BitIndex} (h : b.toInt ≤ 38) : b + 1 ≠ Config.frameBits := by
  intro e
  have h2 := index_succ b (by omega)
  rw [e] at h2
  have : (Config.frameBits).toInt = 40 := by decide
  omega

theorem bit_of_index_39 {s : State} (h : s.index = 39) : s.bit = 39 := by
  simpa using bit_eq_of_index s.bit 39 h

/-- A `RISE` before the last position: R101 with `bit` at most 38. -/
theorem measureRise_before {s : State} {τ : Tick} (h : s.index ≤ 38) : s.measureRise τ =
    { s with
      bit := BitVec.ofInt 7 (s.index + 1)
      hum := humAfter s (elapsed s.tref τ)
      tmp := tmpAfter s (elapsed s.tref τ)
      cs := csAfter s (elapsed s.tref τ) } := by
  have h39 : s.index ≤ 39 := by omega
  have hb : s.bit + 1 = BitVec.ofInt 7 (s.index + 1) := bit_succ_eq s.bit h39
  unfold State.measureRise classify
  simp only [collect_eq h39]
  rw [if_neg (bit_succ_ne (b := s.bit) h), hb]

theorem humAfter_last {s : State} (d : Nat) (h : s.index = 39) : humAfter s d = s.hum := by
  simp [humAfter, h]

theorem tmpAfter_last {s : State} (d : Nat) (h : s.index = 39) : tmpAfter s d = s.tmp := by
  simp [tmpAfter, h]

/-- A `RISE` at the last position: R101 with `bit` = 39, R111. -/
theorem measureRise_last {s : State} {τ : Tick} (h : s.index = 39) : s.measureRise τ =
    { s with bit := 40, cs := csAfter s (elapsed s.tref τ) }.complete τ := by
  have h39 : s.index ≤ 39 := by omega
  have hb : s.bit + 1 = Config.frameBits := by rw [bit_of_index_39 h]; decide
  unfold State.measureRise classify
  simp only [collect_eq h39]
  rw [if_pos hb, hb, humAfter_last _ h, tmpAfter_last _ h]
  rfl

theorem complete_valid {s : State} {τ : Tick} (h : s.cs.toNat = (s.hum.toNat + s.tmp.toNat) % 256) :
    s.complete τ = { s with
      armed := false
      status := 1
      resValid := true
      resHum := s.hum
      resTmp := s.tmp
      resTime := τ
      emitted := s.emitted ++ [.wd 0, .out ⟨.reading, s.hum, s.tmp, τ⟩] } := by
  simp [State.complete, validate_valid h, State.endCycle, State.latch, State.emitWd, State.emitOut,
    Config.wdDisarm, OutcomeKind.code]

theorem complete_invalid {s : State} {τ : Tick} (h : s.cs.toNat ≠ (s.hum.toNat + s.tmp.toNat) % 256) :
    s.complete τ = { s with
      armed := false
      status := 2
      emitted := s.emitted ++ [.wd 0, .out ⟨.checksumMismatch, 0, 0, τ⟩] } := by
  simp [State.complete, validate_invalid h, State.endCycle, State.latch, State.emitWd, State.emitOut,
    Config.wdDisarm, OutcomeKind.code]

theorem measureRise_last_valid {s : State} {τ : Tick} (h : s.index = 39)
    (hv : sumMatches s (elapsed s.tref τ)) : s.measureRise τ =
    { s with
      armed := false
      bit := 40
      cs := csAfter s (elapsed s.tref τ)
      status := 1
      resValid := true
      resHum := s.hum
      resTmp := s.tmp
      resTime := τ
      emitted := s.emitted ++ [.wd 0, .out ⟨.reading, s.hum, s.tmp, τ⟩] } := by
  rw [measureRise_last h]
  exact complete_valid (s := { s with bit := 40, cs := csAfter s (elapsed s.tref τ) }) hv

theorem measureRise_last_invalid {s : State} {τ : Tick} (h : s.index = 39)
    (hv : ¬ sumMatches s (elapsed s.tref τ)) : s.measureRise τ =
    { s with
      armed := false
      bit := 40
      cs := csAfter s (elapsed s.tref τ)
      status := 2
      emitted := s.emitted ++ [.wd 0, .out ⟨.checksumMismatch, 0, 0, τ⟩] } := by
  rw [measureRise_last h]
  exact complete_invalid (s := { s with bit := 40, cs := csAfter s (elapsed s.tref τ) }) hv

/-! ## The operations that end or start a cycle -/

theorem endCycle_failure {s : State} {k : OutcomeKind} {τ : Tick} (h : k ≠ .reading) :
    s.endCycle k 0 0 τ = { s with
      armed := false
      status := k.code
      emitted := s.emitted ++ [.wd 0, .out ⟨k, 0, 0, τ⟩] } := by
  simp [State.endCycle, State.latch, h, State.emitWd, State.emitOut, Config.wdDisarm]

theorem startCycle_eq (s : State) (τ : Tick) : (s.abandon τ).startCycle τ =
    { s with
      armed := true, bit := -2, hum := 0, tmp := 0, cs := 0, tref := τ, status := 0
      emitted := s.emitted ++ (if s.armed then [.out ⟨.incomplete, 0, 0, τ⟩] else []) ++ [.wd 200] } := by
  cases ha : s.armed <;>
    simp [State.abandon, ha, State.startCycle, State.emitWd, State.emitOut, State.clearFrame, statusNone,
      Config.preFrame, Config.wdWindowMs]

/-! ## Inversion: the cases of an operation -/

/-- What `FALL` can do. -/
theorem afterOp_fall_cases (s : State) (τ : Tick) :
    (s.armed = false ∧ afterOp (.fall τ) s = s) ∨
    (s.armed = true ∧ elapsed s.tref τ ≤ 250000 ∧ afterOp (.fall τ) s = { s with tref := τ }) ∨
    (s.armed = true ∧ 250000 < elapsed s.tref τ ∧
      afterOp (.fall τ) s = { s with bit := -2, hum := 0, tmp := 0, cs := 0, tref := τ }) := by
  cases ha : s.armed
  · exact .inl ⟨rfl, by simp [afterOp, ha]⟩
  · rcases Nat.lt_or_ge 250000 (elapsed s.tref τ) with h | h
    · exact .inr (.inr ⟨rfl, h, by simp [afterOp, ha, recordFall_long h]⟩)
    · exact .inr (.inl ⟨rfl, h, by simp [afterOp, ha, recordFall_short h]⟩)

/-- What `RISE` can do. -/
theorem afterOp_rise_cases (s : State) (τ : Tick) :
    ((s.armed = false ∨ 40 ≤ s.index) ∧ afterOp (.rise τ) s = s) ∨
    (s.armed = true ∧ s.index ≤ 38 ∧ afterOp (.rise τ) s =
      { s with
        bit := BitVec.ofInt 7 (s.index + 1)
        hum := humAfter s (elapsed s.tref τ)
        tmp := tmpAfter s (elapsed s.tref τ)
        cs := csAfter s (elapsed s.tref τ) }) ∨
    (s.armed = true ∧ s.index = 39 ∧ sumMatches s (elapsed s.tref τ) ∧ afterOp (.rise τ) s =
      { s with
        armed := false
        bit := 40
        cs := csAfter s (elapsed s.tref τ)
        status := 1
        resValid := true
        resHum := s.hum
        resTmp := s.tmp
        resTime := τ
        emitted := s.emitted ++ [.wd 0, .out ⟨.reading, s.hum, s.tmp, τ⟩] }) ∨
    (s.armed = true ∧ s.index = 39 ∧ ¬ sumMatches s (elapsed s.tref τ) ∧ afterOp (.rise τ) s =
      { s with
        armed := false
        bit := 40
        cs := csAfter s (elapsed s.tref τ)
        status := 2
        emitted := s.emitted ++ [.wd 0, .out ⟨.checksumMismatch, 0, 0, τ⟩] }) := by
  by_cases ha : s.armed = true ∧ s.index ≤ 39
  · have e : afterOp (.rise τ) s = s.measureRise τ := by simp [afterOp, ha]
    obtain ⟨h1, h2⟩ := ha
    rw [e]
    by_cases h38 : s.index ≤ 38
    · exact .inr (.inl ⟨h1, h38, measureRise_before h38⟩)
    · have h39 : s.index = 39 := by omega
      by_cases hv : sumMatches s (elapsed s.tref τ)
      · exact .inr (.inr (.inl ⟨h1, h39, hv, measureRise_last_valid h39 hv⟩))
      · exact .inr (.inr (.inr ⟨h1, h39, hv, measureRise_last_invalid h39 hv⟩))
  · refine .inl ⟨?_, by simp only [afterOp, if_neg ha]⟩
    cases h1 : s.armed
    · exact .inl rfl
    · exact .inr (by have h2 : ¬ s.index ≤ 39 := fun h => ha ⟨h1, h⟩
                     omega)

theorem afterOp_wdt (s : State) (τ : Tick) : afterOp (.wdt τ) s =
    if s.armed then
      { s with armed := false, status := 3, emitted := s.emitted ++ [.wd 0, .out ⟨.timeout, 0, 0, τ⟩] }
    else { s with emitted := s.emitted ++ [.wd 0] } := by
  show (if s.armed then s.endCycle .timeout 0 0 τ else s.emitWd Config.wdDisarm) = _
  rw [endCycle_failure (by decide)]
  rfl

theorem afterOp_cancel (s : State) (τ : Tick) : afterOp (.cancel τ) s =
    if s.armed then
      { s with armed := false, status := 4, emitted := s.emitted ++ [.wd 0, .out ⟨.incomplete, 0, 0, τ⟩] }
    else { s with emitted := s.emitted ++ [.wd 0] } := by
  show (if s.armed then s.endCycle .incomplete 0 0 τ else s.emitWd Config.wdDisarm) = _
  rw [endCycle_failure (by decide)]
  rfl

theorem afterOp_arm (s : State) (τ : Tick) : afterOp (.arm τ) s =
    { s with
      armed := true, bit := -2, hum := 0, tmp := 0, cs := 0, tref := τ, status := 0
      emitted := s.emitted ++ (if s.armed then [.out ⟨.incomplete, 0, 0, τ⟩] else []) ++ [.wd 200] } :=
  startCycle_eq s τ

/-! ## The same as equations, one per case -/

theorem afterOp_fall_idle {s : State} (τ : Tick) (ha : s.armed = false) : afterOp (.fall τ) s = s := by
  simp [afterOp, ha]

theorem afterOp_fall_short {s : State} {τ : Tick} (ha : s.armed = true)
    (h : elapsed s.tref τ ≤ 250000) : afterOp (.fall τ) s = { s with tref := τ } :=
  (if_pos ha).trans (recordFall_short h)

theorem afterOp_fall_long {s : State} {τ : Tick} (ha : s.armed = true)
    (h : 250000 < elapsed s.tref τ) :
    afterOp (.fall τ) s = { s with bit := -2, hum := 0, tmp := 0, cs := 0, tref := τ } :=
  (if_pos ha).trans (recordFall_long h)

theorem afterOp_rise_ignored {s : State} (τ : Tick) (h : s.armed = false ∨ 40 ≤ s.index) :
    afterOp (.rise τ) s = s := by
  refine if_neg fun c => ?_
  rcases h with h | h
  · exact absurd (h ▸ c.1) (by decide)
  · omega

theorem afterOp_rise_before {s : State} {τ : Tick} (ha : s.armed = true) (h : s.index ≤ 38) :
    afterOp (.rise τ) s = { s with
      bit := BitVec.ofInt 7 (s.index + 1)
      hum := humAfter s (elapsed s.tref τ)
      tmp := tmpAfter s (elapsed s.tref τ)
      cs := csAfter s (elapsed s.tref τ) } :=
  (if_pos ⟨ha, by omega⟩).trans (measureRise_before h)

theorem afterOp_rise_valid {s : State} {τ : Tick} (ha : s.armed = true) (h : s.index = 39)
    (hv : sumMatches s (elapsed s.tref τ)) : afterOp (.rise τ) s = { s with
      armed := false
      bit := 40
      cs := csAfter s (elapsed s.tref τ)
      status := 1
      resValid := true
      resHum := s.hum
      resTmp := s.tmp
      resTime := τ
      emitted := s.emitted ++ [.wd 0, .out ⟨.reading, s.hum, s.tmp, τ⟩] } :=
  (if_pos ⟨ha, by omega⟩).trans (measureRise_last_valid h hv)

theorem afterOp_rise_invalid {s : State} {τ : Tick} (ha : s.armed = true) (h : s.index = 39)
    (hv : ¬ sumMatches s (elapsed s.tref τ)) : afterOp (.rise τ) s = { s with
      armed := false
      bit := 40
      cs := csAfter s (elapsed s.tref τ)
      status := 2
      emitted := s.emitted ++ [.wd 0, .out ⟨.checksumMismatch, 0, 0, τ⟩] } :=
  (if_pos ⟨ha, by omega⟩).trans (measureRise_last_invalid h hv)

theorem afterOp_wdt_open {s : State} (τ : Tick) (ha : s.armed = true) : afterOp (.wdt τ) s =
    { s with armed := false, status := 3, emitted := s.emitted ++ [.wd 0, .out ⟨.timeout, 0, 0, τ⟩] } :=
  (afterOp_wdt s τ).trans (if_pos ha)

theorem afterOp_wdt_idle {s : State} (τ : Tick) (ha : s.armed = false) :
    afterOp (.wdt τ) s = { s with emitted := s.emitted ++ [.wd 0] } :=
  (afterOp_wdt s τ).trans (if_neg (by simp [ha]))

theorem afterOp_cancel_open {s : State} (τ : Tick) (ha : s.armed = true) : afterOp (.cancel τ) s =
    { s with
      armed := false
      status := 4
      emitted := s.emitted ++ [.wd 0, .out ⟨.incomplete, 0, 0, τ⟩] } :=
  (afterOp_cancel s τ).trans (if_pos ha)

theorem afterOp_cancel_idle {s : State} (τ : Tick) (ha : s.armed = false) :
    afterOp (.cancel τ) s = { s with emitted := s.emitted ++ [.wd 0] } :=
  (afterOp_cancel s τ).trans (if_neg (by simp [ha]))

/-! ## The inputs still to come play no part in an operation -/

theorem afterOp_withInputs (i : Instr) (s : State) (q : List Input) :
    afterOp i { s with inputs := q } = { afterOp i s with inputs := q } := by
  cases i with
  | fall τ =>
    rcases afterOp_fall_cases s τ with ⟨h, e⟩ | ⟨h, g, e⟩ | ⟨h, g, e⟩ <;> rw [e]
    · exact afterOp_fall_idle τ (by exact h)
    · exact afterOp_fall_short (by exact h) (by exact g)
    · exact afterOp_fall_long (by exact h) (by exact g)
  | rise τ =>
    rcases afterOp_rise_cases s τ with ⟨h, e⟩ | ⟨h, g, e⟩ | ⟨h, g, v, e⟩ | ⟨h, g, v, e⟩ <;> rw [e]
    · exact afterOp_rise_ignored τ (by exact h)
    · exact afterOp_rise_before (by exact h) (by exact g)
    · exact afterOp_rise_valid (by exact h) (by exact g) (by exact v)
    · exact afterOp_rise_invalid (by exact h) (by exact g) (by exact v)
  | wdt τ => rw [afterOp_wdt, afterOp_wdt]; cases h : s.armed <;> simp
  | cancel τ => rw [afterOp_cancel, afterOp_cancel]; cases h : s.armed <;> simp
  | arm τ => rw [afterOp_arm, afterOp_arm]
  | rsv5 τ => rfl
  | rsv6 τ => rfl
  | rsv7 τ => rfl

end Sys2Proof.Machine
end

