-- ==== Sys2Proof/Laws/Step.lean ====
section
/-! SUPPORT. What a step can do, and what a trace of inputs does, as folds of total functions. -/

namespace Sys2Proof.Machine

/-! ## One step -/

theorem step_event {s : State} {w : EventWord} {rest : List Input} (h : s.inputs = .event w :: rest) :
    step s = .next (afterOp (decode w) (s.accept rest)) := by
  unfold step
  rw [h]
  exact exec_eq _ _

theorem step_reset {s : State} {rest : List Input} (h : s.inputs = .reset :: rest) :
    step s = .next (s.takeReset rest) := by
  unfold step
  rw [h]

theorem step_wait {s : State} (h : s.inputs = []) : step s = .next s.wait := by
  unfold step
  rw [h]

/-- The cases of a step. -/
theorem step_cases {s t : State} (h : step s = .next t) :
    (s.inputs = [] ∧ t = s.wait) ∨
    (∃ rest, s.inputs = .reset :: rest ∧ t = s.takeReset rest) ∨
    (∃ w rest, s.inputs = .event w :: rest ∧ t = afterOp (decode w) (s.accept rest)) := by
  match hi : s.inputs with
  | [] => rw [step_wait hi] at h; exact .inl ⟨rfl, by injection h with h; exact h.symm⟩
  | .reset :: rest =>
    rw [step_reset hi] at h
    exact .inr (.inl ⟨rest, rfl, by injection h with h; exact h.symm⟩)
  | .event w :: rest =>
    rw [step_event hi] at h
    exact .inr (.inr ⟨w, rest, rfl, by injection h with h; exact h.symm⟩)

/-- An event step is its operation on the state with the event taken. -/
theorem EventStep.eq {s t : State} {i : Instr} (h : EventStep s i t) :
    ∃ rest, t = afterOp i (s.accept rest) := by
  obtain ⟨w, rest, hi, rfl, hs⟩ := h
  rw [step_event hi] at hs
  injection hs with hs
  exact ⟨rest, hs.symm⟩

/-! ## Traces -/

/-- The state after one input presented to `s`. -/
def afterInput : Input → State → State
  | .event w, s => afterOp (decode w) { s with emitted := [] }
  | .reset, s => { State.reset with inputs := s.inputs }

theorem step_present (i : Input) (s : State) : step (s.present i) = .next (afterInput i s) := by
  cases i with
  | event w => exact step_event rfl
  | reset => rfl

/-- The outputs and the end state of a sequence of inputs. -/
def runInputs : List Input → State → List Output × State
  | [], s => ([], s)
  | i :: rest, s =>
    let r := runInputs rest (afterInput i s)
    ((afterInput i s).emitted ++ r.1, r.2)

theorem runTrace_eq (ins : List Input) (s : State) : runTrace ins s = some (runInputs ins s) := by
  induction ins generalizing s with
  | nil => rfl
  | cons i rest ih => simp only [runTrace, step_present, ih, Option.map_some, runInputs]

/-- The outputs and the end state of a sequence of operations. -/
def runOps : List Instr → State → List Output × State
  | [], s => ([], s)
  | i :: rest, s =>
    let t := afterOp i { s with emitted := [] }
    let r := runOps rest t
    (t.emitted ++ r.1, r.2)

theorem runInputs_ops (ops : List Instr) (s : State) : runInputs (opTrace ops) s = runOps ops s := by
  induction ops generalizing s with
  | nil => rfl
  | cons i rest ih =>
    simp only [opTrace, List.map_cons, runInputs, runOps, opInput, afterInput, decode_encode]
    simp only [opTrace] at ih
    rw [ih]

theorem runTrace_ops (ops : List Instr) (s : State) :
    runTrace (opTrace ops) s = some (runOps ops s) := by
  rw [runTrace_eq, runInputs_ops]

theorem runOps_append (a b : List Instr) (s : State) :
    runOps (a ++ b) s = ((runOps a s).1 ++ (runOps b (runOps a s).2).1, (runOps b (runOps a s).2).2) := by
  induction a generalizing s with
  | nil => simp [runOps]
  | cons i rest ih => simp only [List.cons_append, runOps, ih, List.append_assoc]

theorem runInputs_append (a b : List Input) (s : State) :
    runInputs (a ++ b) s =
      ((runInputs a s).1 ++ (runInputs b (runInputs a s).2).1, (runInputs b (runInputs a s).2).2) := by
  induction a generalizing s with
  | nil => simp [runInputs]
  | cons i rest ih => simp only [List.cons_append, runInputs, ih, List.append_assoc]

theorem afterOp_inputs (i : Instr) (s : State) : (afterOp i s).inputs = s.inputs := by
  have h := afterOp_withInputs i s s.inputs
  have h2 := congrArg State.inputs h
  exact h2

theorem afterInput_inputs (i : Input) (s : State) : (afterInput i s).inputs = s.inputs := by
  cases i with
  | event w => exact afterOp_inputs _ _
  | reset => rfl

theorem afterInput_withInputs (i : Input) (s : State) (q : List Input) :
    afterInput i { s with inputs := q } = { afterInput i s with inputs := q } := by
  cases i with
  | event w => exact afterOp_withInputs _ { s with emitted := [] } q
  | reset => rfl

/-- A property that every operation keeps holds at the end of every sequence of operations. -/
theorem runOps_keeps {P : State → Prop} (hstep : ∀ i s, P s → P (afterOp i { s with emitted := [] }))
    (ops : List Instr) (s : State) (h : P s) : P (runOps ops s).2 := by
  induction ops generalizing s with
  | nil => exact h
  | cons i rest ih => exact ih _ (hstep i s h)

end Sys2Proof.Machine
end

