-- ==== Sys2Proof/Laws/Events.lean ====
section
/-! SUPPORT. Inversion of an event step, one lemma per operation: the states it can lead to, written out
over the state before. And the two ports as lists. -/

namespace Sys2Proof.Machine

variable {s t : State} {τ : Tick}

theorem EventStep.fall_cases (h : EventStep s (.fall τ) t) : ∃ rest,
    (s.armed = false ∧ t = { s with inputs := rest, emitted := [] }) ∨
    (s.armed = true ∧ elapsed s.tref τ ≤ 250000 ∧
      t = { s with tref := τ, inputs := rest, emitted := [] }) ∨
    (s.armed = true ∧ 250000 < elapsed s.tref τ ∧
      t = { s with bit := -2, hum := 0, tmp := 0, cs := 0, tref := τ, inputs := rest, emitted := [] }) := by
  obtain ⟨rest, rfl⟩ := h.eq
  exact ⟨rest, afterOp_fall_cases (s.accept rest) τ⟩

theorem EventStep.rise_cases (h : EventStep s (.rise τ) t) : ∃ rest,
    ((s.armed = false ∨ 40 ≤ s.index) ∧ t = { s with inputs := rest, emitted := [] }) ∨
    (s.armed = true ∧ s.index ≤ 38 ∧ t =
      { s with
        bit := BitVec.ofInt 7 (s.index + 1)
        hum := humAfter s (elapsed s.tref τ)
        tmp := tmpAfter s (elapsed s.tref τ)
        cs := csAfter s (elapsed s.tref τ)
        inputs := rest
        emitted := [] }) ∨
    (s.armed = true ∧ s.index = 39 ∧ sumMatches s (elapsed s.tref τ) ∧ t =
      { s with
        armed := false
        bit := 40
        cs := csAfter s (elapsed s.tref τ)
        status := 1
        resValid := true
        resHum := s.hum
        resTmp := s.tmp
        resTime := τ
        inputs := rest
        emitted := [.wd 0, .out ⟨.reading, s.hum, s.tmp, τ⟩] }) ∨
    (s.armed = true ∧ s.index = 39 ∧ ¬ sumMatches s (elapsed s.tref τ) ∧ t =
      { s with
        armed := false
        bit := 40
        cs := csAfter s (elapsed s.tref τ)
        status := 2
        inputs := rest
        emitted := [.wd 0, .out ⟨.checksumMismatch, 0, 0, τ⟩] }) := by
  obtain ⟨rest, rfl⟩ := h.eq
  exact ⟨rest, afterOp_rise_cases (s.accept rest) τ⟩

theorem EventStep.wdt_cases (h : EventStep s (.wdt τ) t) : ∃ rest,
    (s.armed = true ∧ t = { s with
      armed := false, status := 3, inputs := rest, emitted := [.wd 0, .out ⟨.timeout, 0, 0, τ⟩] }) ∨
    (s.armed = false ∧ t = { s with inputs := rest, emitted := [.wd 0] }) := by
  obtain ⟨rest, rfl⟩ := h.eq
  refine ⟨rest, ?_⟩
  rw [afterOp_wdt]
  cases ha : s.armed
  · exact .inr ⟨rfl, by simp [ha]⟩
  · exact .inl ⟨rfl, by simp [ha]⟩

theorem EventStep.cancel_cases (h : EventStep s (.cancel τ) t) : ∃ rest,
    (s.armed = true ∧ t = { s with
      armed := false, status := 4, inputs := rest, emitted := [.wd 0, .out ⟨.incomplete, 0, 0, τ⟩] }) ∨
    (s.armed = false ∧ t = { s with inputs := rest, emitted := [.wd 0] }) := by
  obtain ⟨rest, rfl⟩ := h.eq
  refine ⟨rest, ?_⟩
  rw [afterOp_cancel]
  cases ha : s.armed
  · exact .inr ⟨rfl, by simp [ha]⟩
  · exact .inl ⟨rfl, by simp [ha]⟩

theorem EventStep.arm_cases (h : EventStep s (.arm τ) t) : ∃ rest,
    (s.armed = true ∧ t = { s with
      armed := true, bit := -2, hum := 0, tmp := 0, cs := 0, tref := τ, status := 0, inputs := rest
      emitted := [.out ⟨.incomplete, 0, 0, τ⟩, .wd 200] }) ∨
    (s.armed = false ∧ t = { s with
      armed := true, bit := -2, hum := 0, tmp := 0, cs := 0, tref := τ, status := 0, inputs := rest
      emitted := [.wd 200] }) := by
  obtain ⟨rest, rfl⟩ := h.eq
  refine ⟨rest, ?_⟩
  rw [afterOp_arm]
  cases ha : s.armed
  · exact .inr ⟨rfl, by simp [ha]⟩
  · exact .inl ⟨rfl, by simp [ha]⟩

theorem EventStep.rsv5_eq (h : EventStep s (.rsv5 τ) t) :
    ∃ rest, t = { s with inputs := rest, emitted := [] } := h.eq

theorem EventStep.rsv6_eq (h : EventStep s (.rsv6 τ) t) :
    ∃ rest, t = { s with inputs := rest, emitted := [] } := h.eq

theorem EventStep.rsv7_eq (h : EventStep s (.rsv7 τ) t) :
    ∃ rest, t = { s with inputs := rest, emitted := [] } := h.eq

/-- Presenting an operation is an event step. -/
theorem eventStep_present (i : Instr) (s : State) :
    EventStep (s.present (opInput i)) i (afterOp i { s with emitted := [] }) :=
  ⟨encode i, s.inputs, rfl, decode_encode i, by
    rw [step_event (rest := s.inputs) rfl, decode_encode]; rfl⟩

/-! ## The bit index after a counted `RISE` -/

theorem index_ofInt_succ (h : s.index ≤ 38) : (BitVec.ofInt 7 (s.index + 1)).toInt = s.index + 1 := by
  unfold State.index at *
  rw [← bit_succ_eq _ (by omega), index_succ _ (by omega)]

/-! ## The sentinel flag after a `RISE` -/

theorem sentinelFlag_csAfter (s : State) (d : Nat) :
    sentinelFlag (csAfter s d) = if 200 ≤ d then true else sentinelFlag s.cs := by
  have := s.cs.isLt
  rw [sentinelFlag_eq, sentinelFlag_eq]
  unfold csAfter csMarked
  by_cases h : 200 ≤ d
  · simp only [h, if_true]
    split
    · rw [BitVec.toNat_ofNat]; simp; omega
    · rfl
  · simp only [h, if_false]
    split
    · rw [BitVec.toNat_ofNat]; congr 1; simp only [eq_iff_iff]; omega
    · simp

/-! ## Ports as lists -/

theorem mem_wdCommands (l : List Output) (ms : WdCommand) : ms ∈ wdCommands l ↔ .wd ms ∈ l := by
  induction l with
  | nil => simp [wdCommands]
  | cons a r ih => cases a <;> simp [wdCommands, ih]

theorem mem_outcomes (l : List Output) (o : OutcomeWord) : o ∈ outcomes l ↔ .out o ∈ l := by
  induction l with
  | nil => simp [outcomes]
  | cons a r ih => cases a <;> simp [outcomes, ih]

theorem wdCommands_append (a b : List Output) : wdCommands (a ++ b) = wdCommands a ++ wdCommands b := by
  induction a with
  | nil => rfl
  | cons x r ih => cases x <;> simp [wdCommands, ih]

theorem outcomes_append (a b : List Output) : outcomes (a ++ b) = outcomes a ++ outcomes b := by
  induction a with
  | nil => rfl
  | cons x r ih => cases x <;> simp [outcomes, ih]

end Sys2Proof.Machine
end

