-- ==== Sys2Proof/Laws/Invariant.lean ====
section
/-! SUPPORT. The bounds of R115 on the accumulators, step by step, and what operations do while no cycle
is in progress (R114, R141, R102). -/

namespace Sys2Proof.Machine

theorem fold_bound {x v n : Nat} (h : x < 2 ^ n) (hv : v ≤ 1) : 2 * x + v < 2 ^ (n + 1) := by
  rw [Nat.pow_succ]; omega

theorem pulseValue_le (d : Nat) : pulseValue d ≤ 1 := by unfold pulseValue; split <;> omega

/-- A fresh FrameState has empty accumulators (R29). -/
theorem accumulating_fresh (s : State) (hb : s.index = -2) (h1 : s.hum = 0) (h2 : s.tmp = 0)
    (h3 : s.cs = 0) : Accumulating s := by
  refine ⟨fun _ => h1, fun _ _ => ?_, fun _ => h2, fun _ _ => ?_, fun _ => ?_, fun _ _ => ?_⟩
  · omega
  · omega
  · rw [h3]; rfl
  · omega

/-- A counted `RISE` keeps the bounds of R115 (c), (d), (e). -/
theorem accumulating_rise (s u : State) (d : Nat) (hi : u.index = s.index + 1) (h38 : s.index ≤ 38)
    (e1 : u.hum = humAfter s d) (e2 : u.tmp = tmpAfter s d) (e3 : u.cs = csAfter s d)
    (h : Accumulating s) : Accumulating u := by
  have hp := pulseValue_le d
  have hm : csMarked s d % 256 = 0 ∨ csMarked s d = s.cs.toNat := by
    unfold csMarked; split <;> simp
  have hm2 : csMarked s d < 512 := by
    unfold csMarked
    have := s.cs.isLt
    split <;> omega
  refine ⟨?_, ?_, ?_, ?_, ?_, ?_⟩
  · intro a
    rw [e1]; unfold humAfter; rw [if_neg (by omega)]; exact h.humBefore (by omega)
  · intro a b
    rw [e1]; unfold humAfter
    by_cases hw : 0 ≤ s.index
    · rw [if_pos (by omega), BitVec.toNat_ofNat, hi]
      have := fold_bound (h.humDuring hw (by omega)) hp
      have e : (s.index + 1).toNat = s.index.toNat + 1 := by omega
      rw [e]
      exact Nat.lt_of_le_of_lt (Nat.mod_le _ _) this
    · rw [if_neg (by omega), h.humBefore (by omega)]
      exact Nat.two_pow_pos _
  · intro a
    rw [e2]; unfold tmpAfter; rw [if_neg (by omega)]; exact h.tmpBefore (by omega)
  · intro a b
    rw [e2]; unfold tmpAfter
    by_cases hw : 16 ≤ s.index
    · rw [if_pos (by omega), BitVec.toNat_ofNat, hi]
      have := fold_bound (h.tmpDuring hw (by omega)) hp
      have e : (s.index + 1 - 16).toNat = (s.index - 16).toNat + 1 := by omega
      rw [e]
      exact Nat.lt_of_le_of_lt (Nat.mod_le _ _) this
    · rw [if_neg (by omega), h.tmpBefore (by omega)]
      exact Nat.two_pow_pos _
  · intro a
    rw [e3]; unfold csAfter; rw [if_neg (by omega), BitVec.toNat_ofNat]
    have := h.csBefore (by omega)
    omega
  · intro a b
    rw [e3]; unfold csAfter
    by_cases hw : 32 ≤ s.index
    · rw [if_pos (by omega), BitVec.toNat_ofNat, hi]
      have hb : csMarked s d % 256 < 2 ^ (s.index - 32).toNat := by
        rcases hm with hm | hm
        · rw [hm]; exact Nat.two_pow_pos _
        · rw [hm]; exact h.csDuring hw (by omega)
      have := fold_bound hb hp
      have e : (s.index + 1 - 32).toNat = (s.index - 32).toNat + 1 := by omega
      rw [e]
      have l : (2 * csMarked s d + pulseValue d) % 256 ≤ 2 * (csMarked s d % 256) + pulseValue d := by
        omega
      have l2 : (csMarked s d / 256 * 256 + (2 * csMarked s d + pulseValue d) % 256) % 2 ^ 9 % 256
          = (2 * csMarked s d + pulseValue d) % 256 := by omega
      rw [l2]; omega
    · rw [if_neg (by omega), BitVec.toNat_ofNat]
      have h0 := h.csBefore (by omega)
      have : csMarked s d % 2 ^ 9 % 256 = 0 := by omega
      rw [this]; exact Nat.two_pow_pos _

/-- The invariant does not look at the ports. -/
theorem invariant_withPorts (s : State) (h : Invariant s) (q : List Input) (em : List Output) :
    Invariant { s with inputs := q, emitted := em } :=
  ⟨⟨h.1.1, h.1.2, h.1.3, h.1.4, h.1.5, h.1.6⟩,
    fun ha => ⟨(h.2 ha).1, (h.2 ha).2, (h.2 ha).3, (h.2 ha).4, (h.2 ha).5, (h.2 ha).6⟩⟩

/-! ## While no cycle is in progress -/

/-- Not armed, everything but `ARM` changes no register; `WDT` and `CANCEL` disarm the watchdog. -/
theorem afterOp_idle {s : State} (hs : s.armed = false) (i : Instr) (hi : isArm i = false) :
    afterOp i s = s ∨
      ((∃ τ, i = .wdt τ ∨ i = .cancel τ) ∧ afterOp i s = { s with emitted := s.emitted ++ [.wd 0] }) := by
  cases i with
  | fall τ => exact .inl (afterOp_fall_idle τ hs)
  | rise τ => exact .inl (afterOp_rise_ignored τ (.inl hs))
  | wdt τ => exact .inr ⟨⟨τ, .inl rfl⟩, afterOp_wdt_idle τ hs⟩
  | cancel τ => exact .inr ⟨⟨τ, .inr rfl⟩, afterOp_cancel_idle τ hs⟩
  | arm τ => cases hi
  | rsv5 τ => exact .inl rfl
  | rsv6 τ => exact .inl rfl
  | rsv7 τ => exact .inl rfl

/-! ## Translation of time -/

theorem elapsed_add_right (a b k : Tick) : elapsed (a + k) (b + k) = elapsed a b := by
  rw [← tickDelta_toNat, ← tickDelta_toNat, tickDelta_add_right]

/-! ## The result latch -/

theorem SameLatch.refl (s : State) : SameLatch s s := ⟨rfl, rfl, rfl, rfl⟩

theorem SameLatch.trans {s t u : State} (a : SameLatch s t) (b : SameLatch t u) : SameLatch s u :=
  ⟨a.1.trans b.1, a.2.trans b.2, a.3.trans b.3, a.4.trans b.4⟩

end Sys2Proof.Machine
end

