-- ==== Sys2Proof/Laws/Frames.lean ====
section
/-! SUPPORT. Frames and pulses: a byte read most significant bit first (R52), the bits of a frame by
position (R51, R53), the widths of the pseudo-operations (R86), and a frame with bits flipped. -/

namespace Sys2Proof.Machine

/-! ## A byte, bit by bit -/

/-- The number that the first `n` bits of a byte make, all eight from `n` = 8 on. -/
def topBits (v : Byte) (n : Nat) : Nat := v.toNat / 2 ^ (8 - n)

theorem topBits_zero (v : Byte) : topBits v 0 = 0 := by
  unfold topBits; have := v.isLt; exact Nat.div_eq_of_lt (by simpa using this)

theorem topBits_full (v : Byte) (n : Nat) (h : 8 ≤ n) : topBits v n = v.toNat := by
  unfold topBits; rw [show 8 - n = 0 by omega]; simp

theorem topBits_lt (v : Byte) (n : Nat) : topBits v n < 256 := by
  unfold topBits; have := v.isLt; exact Nat.lt_of_le_of_lt (Nat.div_le_self _ _) this

theorem topBits_succ (v : Byte) (n : Nat) (h : n < 8) : 2 * topBits v n + (v.getLsbD (7 - n)).toNat = topBits v (n + 1) := by
  unfold topBits
  interval_cases n <;> (revert v; decide)

theorem bitAt_hum (f : Frame) (i : Nat) (h : i < 8) : f.bitAt i = f.hum.getLsbD (7 - i) := by
  interval_cases i <;> simp only [Frame.bitAt, Frame.bits, BitVec.getLsbD_append] <;> simp
theorem bitAt_tmp (f : Frame) (i : Nat) (h : i < 8) : f.bitAt (16 + i) = f.tmp.getLsbD (7 - i) := by
  interval_cases i <;> simp only [Frame.bitAt, Frame.bits, BitVec.getLsbD_append] <;> simp
theorem bitAt_cs (f : Frame) (i : Nat) (h : i < 8) : f.bitAt (32 + i) = f.checksum.getLsbD (7 - i) := by
  interval_cases i <;> simp only [Frame.bitAt, Frame.bits, BitVec.getLsbD_append] <;> simp

/-! ## The pseudo-operations -/

theorem Pulse.width_mk (t d : Tick) : (Pulse.mk t (t + d)).width = d := by
  show t + d - t = d
  exact add_sub_cancel_left t d

theorem pulsesFrom_widths (g t : Tick) (ds : List Tick) : (pulsesFrom g t ds).map Pulse.width = ds := by
  induction ds generalizing t with
  | nil => rfl
  | cons d r ih => simp only [pulsesFrom, List.map_cons, Pulse.width_mk, ih]

theorem pulsesFrom_gaps (t : Tick) (ds : List Tick) (h : ∀ d ∈ ds, d.toNat ≤ 1000) : gapsShort (pulsesFrom 50 t ds) := by
  induction ds generalizing t with
  | nil => exact trivial
  | cons d r ih =>
    cases r with
    | nil => exact trivial
    | cons d2 r2 =>
      refine ⟨?_, ih _ (fun x hx => h x (by simp_all))⟩
      have := h d (by simp)
      show (t + d + 50 - t).toNat ≤ 250000
      have e : t + d + 50 - t = d + 50 := by rw [add_assoc]; exact add_sub_cancel_left t _
      rw [e, BitVec.toNat_add]
      have : (50 : Tick).toNat = 50 := rfl
      omega

theorem byteWidths_cases (v : Byte) : ∀ d ∈ byteWidths v, d = 26 ∨ d = 70 := by
  intro d hd
  have hb : ∀ b, bitWidth b = 26 ∨ bitWidth b = 70 := by decide
  simp only [byteWidths, List.mem_cons, List.not_mem_nil, or_false] at hd
  rcases hd with rfl | rfl | rfl | rfl | rfl | rfl | rfl | rfl <;> exact hb _

theorem frameWidths_le (f : Frame) : ∀ d ∈ frameWidths f, d.toNat ≤ 80 := by
  intro d hd
  simp only [frameWidths, List.mem_append] at hd
  have hb : ∀ v, d ∈ byteWidths v → d.toNat ≤ 80 := fun v h => by rcases byteWidths_cases v d h with rfl | rfl <;> decide
  rcases hd with ((((hd | hd) | hd) | hd) | hd) | hd
  · simp only [preWidths, List.mem_cons, List.not_mem_nil, or_false] at hd
    rcases hd with rfl | rfl <;> decide
  all_goals exact hb _ hd

theorem frameWidths_getElem (f : Frame) (i : Nat) (h : i < 40) : (frameWidths f)[i + 2]? = some (bitWidth (f.bitAt i)) := by
  interval_cases i <;> simp only [Frame.bitAt, Frame.bits, BitVec.getLsbD_append] <;> simp [frameWidths, preWidths, byteWidths]

/-! ## Flipped bits -/

theorem Frame.ofBits_xor (f : Frame) (m : BitVec 40) : Frame.ofBits (f.bits ^^^ m) =
  ⟨f.hum ^^^ m.extractLsb' 32 8, f.humFraction ^^^ m.extractLsb' 24 8, f.tmp ^^^ m.extractLsb' 16 8, f.tmpFraction ^^^ m.extractLsb' 8 8, f.checksum ^^^ m.extractLsb' 0 8⟩ := by
  unfold Frame.ofBits
  have e1 : f.bits.extractLsb' 32 8 = f.hum := by ext i h; simp only [Frame.bits, BitVec.getElem_extractLsb', BitVec.getLsbD_append]; interval_cases i <;> simp
  have e2 : f.bits.extractLsb' 24 8 = f.humFraction := by ext i h; simp only [Frame.bits, BitVec.getElem_extractLsb', BitVec.getLsbD_append]; interval_cases i <;> simp
  have e3 : f.bits.extractLsb' 16 8 = f.tmp := by ext i h; simp only [Frame.bits, BitVec.getElem_extractLsb', BitVec.getLsbD_append]; interval_cases i <;> simp
  have e4 : f.bits.extractLsb' 8 8 = f.tmpFraction := by ext i h; simp only [Frame.bits, BitVec.getElem_extractLsb', BitVec.getLsbD_append]; interval_cases i <;> simp
  have e5 : f.bits.extractLsb' 0 8 = f.checksum := by ext i h; simp only [Frame.bits, BitVec.getElem_extractLsb', BitVec.getLsbD_append]; interval_cases i <;> simp
  simp only [BitVec.extractLsb'_xor, e1, e2, e3, e4, e5]

end Sys2Proof.Machine
end

