-- ==== Sys2Proof/Laws/PerInstr.lean ====
section
/-! SUPPORT. The families of statements about an operation as syntax, one lemma per constructor.
`EncodeLayout` is the layout of R71: the number of an operation's event word is its code of R72 above
its tick, so the code is the first of nine hexadecimal digits (R85). -/

namespace Sys2Proof.Laws

/-- The event word of `i` is `op * 2^32 + tick`, and its top three bits are the code (R71, R72). -/
def EncodeLayout.Statement (i : Instr) : Prop :=
  (encode i).toNat = i.opcode.toNat * 2 ^ 32 + i.tick.toNat ∧
  (encode i).toNat / 2 ^ 32 = i.opcode.toNat ∧ tickField (encode i) = i.tick

theorem append_toNat (c : BitVec 3) (t : Tick) : (c ++ t).toNat = c.toNat * 2 ^ 32 + t.toNat := by
  rw [BitVec.toNat_append, ← Nat.shiftLeft_add_eq_or_of_lt t.isLt, Nat.shiftLeft_eq]

theorem encodeLayout_any (i : Instr) : EncodeLayout.Statement i := by
  have h := append_toNat i.opcode i.tick
  refine ⟨h, ?_, Machine.tickField_append _ _⟩
  have := i.tick.isLt
  show (i.opcode ++ i.tick).toNat / 2 ^ 32 = _
  omega

theorem EncodeLayout.fall (t : Tick) : EncodeLayout.Statement (.fall t) := encodeLayout_any _

theorem EncodeLayout.rise (t : Tick) : EncodeLayout.Statement (.rise t) := encodeLayout_any _

theorem EncodeLayout.wdt (t : Tick) : EncodeLayout.Statement (.wdt t) := encodeLayout_any _

theorem EncodeLayout.arm (t : Tick) : EncodeLayout.Statement (.arm t) := encodeLayout_any _

theorem EncodeLayout.cancel (t : Tick) : EncodeLayout.Statement (.cancel t) := encodeLayout_any _

theorem EncodeLayout.rsv5 (t : Tick) : EncodeLayout.Statement (.rsv5 t) := encodeLayout_any _

theorem EncodeLayout.rsv6 (t : Tick) : EncodeLayout.Statement (.rsv6 t) := encodeLayout_any _

theorem EncodeLayout.rsv7 (t : Tick) : EncodeLayout.Statement (.rsv7 t) := encodeLayout_any _

end Sys2Proof.Laws
end

