-- ==== Sys2Proof/Machine/TraceText.lean ====
section
/-! DEFINITION. The trace syntax as text (spec/30_encoding.md R85): one line, as a list of characters,
read to a trace line; and the nine hexadecimal digits a line's event word is written with. The names
and the number formats are R85's; what counts as a blank is log 15. -/

namespace Sys2Proof.Machine

/-- The eight mnemonics, each at the place of its operation code (R72, R85). -/
def mnemonics : List (List Char) :=
  [['F', 'A', 'L', 'L'], ['R', 'I', 'S', 'E'], ['W', 'D', 'T'], ['A', 'R', 'M'],
    ['C', 'A', 'N', 'C', 'E', 'L'], ['R', 'S', 'V', '5'], ['R', 'S', 'V', '6'], ['R', 'S', 'V', '7']]

/-- The code of a mnemonic: its place in a table. -/
def codeIn : List (List Char) → Nat → List Char → Option Nat
  | [], _, _ => none
  | m :: rest, k, w => if m = w then some k else codeIn rest (k + 1) w

/-- The value of a digit: `0` to `9`, and for hexadecimal also `A` to `F` and `a` to `f`. -/
def digitValue (c : Char) : Option Nat :=
  let n := c.toNat
  if 48 ≤ n ∧ n ≤ 57 then some (n - 48)
  else if 65 ≤ n ∧ n ≤ 70 then some (n - 55)
  else if 97 ≤ n ∧ n ≤ 102 then some (n - 87)
  else none

/-- Digits in a base, most significant first, on top of the number read so far. -/
def digitsFrom (base : Nat) : Nat → List Char → Option Nat
  | acc, [] => some acc
  | acc, c :: rest =>
    match digitValue c with
    | some d => if d < base then digitsFrom base (base * acc + d) rest else none
    | none => none

/-- A decimal number, or a hexadecimal one after `0x` (R85); at least one digit. -/
def readNumber : List Char → Option Nat
  | [] => none
  | '0' :: 'x' :: d :: rest => digitsFrom 16 0 (d :: rest)
  | '0' :: 'x' :: [] => none
  | d :: rest => digitsFrom 10 0 (d :: rest)

/-- Drops a comment: `#` and everything after it (R85). -/
def dropComment : List Char → List Char
  | [] => []
  | c :: rest => if c = '#' then [] else c :: dropComment rest

/-- The words of a line: maximal runs of characters other than the blank. -/
def splitWords : List Char → List (List Char)
  | [] => [[]]
  | c :: rest =>
    match splitWords rest with
    | [] => [[c]]
    | w :: ws => if c = ' ' then [] :: w :: ws else (c :: w) :: ws

/-- Why a text is no line of a trace. -/
inductive TextReject where
  /-- The text is no `MNEMONIC @tick`, no `RESET` and not empty. Raised by `readLine`; no step raises
  it, the block never sees text. Safe. -/
  | malformedLine
  /-- The tick is 2^32 or more (R85). Raised by `readLine`; no step raises it. Safe. -/
  | tickOutOfRange
deriving DecidableEq, Repr

/-- One line of a trace (R85): nothing for an empty line or one with only a comment. -/
def readLine (text : List Char) : Except TextReject (Option TraceLine) :=
  match (splitWords (dropComment text)).filter fun w => !w.isEmpty with
  | [] => .ok none
  | [['R', 'E', 'S', 'E', 'T']] => .ok (some .reset)
  | [m, '@' :: number] =>
    match codeIn mnemonics 0 m, readNumber number with
    | some op, some tick =>
      if (TraceLine.event op tick).wellFormed then .ok (some (.event op tick)) else .error .tickOutOfRange
    | _, _ => .error .malformedLine
  | _ => .error .malformedLine

/-- The nine hexadecimal digits of an event word (R85): the first is `op`, the other eight `tick`. -/
def hexDigits (w : EventWord) : List Nat :=
  [8, 7, 6, 5, 4, 3, 2, 1, 0].map fun k => w.toNat / 16 ^ k % 16

end Sys2Proof.Machine
end

