-- ==== Sys2Proof/Tests/Slice0.lean ====
section
/-! SUPPORT. Tests of the model. Expected values come from spec/95_test_vectors.md (V1 to V12, P1, P2) and
from the examples of the rules; each test names its source. The `witness_` theorems show inputs that meet
the hypotheses of the statements in Certificates/Slice0/Obligations.lean. -/

namespace Sys2Proof.Tests

open Sys2Proof.Machine

/-! ## Well-formedness: ill-formed terms are refused -/

/-- R85: `op` 8 is no mnemonic; 2^32 is no tick; the largest values are. -/
theorem test_wf_line_code : (TraceLine.event 8 0).wellFormed = false := by decide
theorem test_wf_line_tick : (TraceLine.event 1 (2 ^ 32)).wellFormed = false := by decide
theorem test_wf_line_good : (TraceLine.event 7 (2 ^ 32 - 1)).wellFormed = true := by decide

/-- R75: a producer must not emit a reserved code; the block accepts it. -/
theorem test_wf_reserved : (Instr.rsv5 0).wellFormed = false ∧ (Instr.rsv6 0).wellFormed = false ∧
    (Instr.rsv7 0).wellFormed = false ∧ (Instr.rsv5 0).accepted = true := by decide
theorem test_wf_producer : (Instr.fall 0).wellFormed = true ∧ (Instr.cancel 0).wellFormed = true := by
  decide

/-- R71: the event port is 35 bits wide. -/
theorem test_wf_port : fitsEventPort (2 ^ 35) = false ∧ fitsEventPort (2 ^ 35 - 1) = true := by decide

/-! ## Decoding, bit by bit: `op` in bits 34:32, `tick` in 31:0 (R71, R72; the words of V12) -/

theorem test_decode_fall : decode 0b00000000000000011110100001001011110#35 = .fall 1000030 := by decide
theorem test_decode_rise : decode 0b00100000000000011110100001010111110#35 = .rise 1000126 := by decide
theorem test_decode_rise_max : decode 0b00111111111111111111111111111111111#35 = .rise 4294967295 := by
  decide
theorem test_decode_wdt : decode 0b01000000000010011110110000000001010#35 = .wdt 5201930 := by decide
theorem test_decode_arm : decode 0b01100000000000011110100001001000000#35 = .arm 1000000 := by decide
theorem test_decode_arm_high : decode 0b01111111111111111111111000000000000#35 = .arm 4294963200 := by
  decide
theorem test_decode_cancel : decode 0b10000000000000111101000010010000000#35 = .cancel 2000000 := by
  decide
theorem test_decode_rsv5 : decode 0b10100000000000000000000000000000000#35 = .rsv5 0 := by decide
theorem test_decode_rsv6 : decode 0b11000000000000000000000000001111011#35 = .rsv6 123 := by decide
theorem test_decode_rsv7 : decode 0b11111111111111111111111111111111111#35 = .rsv7 4294967295 := by
  decide

/-- The example of R85, and the table's numbering. -/
theorem test_encode_rise : (encode (.rise 1000126)).toNat = 0x1000F42BE := by decide
theorem test_table_word : decodeTableWord 40 0x1000F42BE = some (.rise 1000126) := by decide
theorem test_table_word_too_wide : decodeTableWord 40 0x800000000 = none := by decide
theorem test_number_rejected : decodeNumber (2 ^ 35) = .error .widerThanEventPort := by rfl

/-! ## The trace syntax as text (R85) -/

theorem test_text_event : (readLine "RISE @1000126 # a comment".toList).toOption =
    some (some (.event 1 1000126)) := by decide
theorem test_text_hex : (readLine "ARM @0x000F4240".toList).toOption = some (some (.event 3 1000000)) := by
  decide
theorem test_text_reset : (readLine "RESET".toList).toOption = some (some .reset) := by decide
theorem test_text_unknown : (readLine "JUMP @0".toList).toOption = none := by decide
theorem test_text_range : (readLine "FALL @4294967296".toList).toOption = none := by decide
theorem test_hex_digits : hexDigits 0x1000F42BE = [1, 0, 0, 0, 15, 4, 2, 11, 14] := by decide

/-! ## Outcome words (V12) -/

theorem test_outcome_reading : (OutcomeWord.mk .reading 45 23 1003670).bits = 0x12D17000F5096 := by decide
theorem test_outcome_incomplete : (OutcomeWord.mk .incomplete 0 0 2000000).bits = 0x40000001E8480 := by
  decide
theorem test_outcome_refused : (OutcomeWord.ofBits 0x5000000000000).toOption = none ∧
    (OutcomeWord.ofBits 0).toOption = none := by decide

/-! ## The parts (V1 to V4) -/

theorem test_delta_wrap : tickDelta 0xFFFFFFF0 0x00000010 = 0x20 ∧
    tickDelta 0x00000402 0x000003E8 = 0xFFFFFFE6 := by decide
theorem test_classify : classify 49 = (false, false) ∧ classify 50 = (true, false) ∧
    classify 199 = (true, false) ∧ classify 200 = (true, true) ∧ classify 4294967295 = (true, true) := by
  decide
theorem test_folds : fold8 22 true = 45 ∧ fold8 128 false = 0 ∧ foldCs 256 true = 257 ∧
    foldCs 383 false = 510 ∧ foldCs 255 false = 254 := by decide
theorem test_validate : validate 45 23 68 = (.reading, 45, 23) ∧
    validate 45 23 324 = (.checksumMismatch, 0, 0) ∧ validate 255 1 0 = (.reading, 255, 1) := by decide

/-! ## One step of each operation (V5 to V11) -/

/-- A state given by the registers a vector names, the others at reset. -/
def at_ (armed : Bool) (bit : BitIndex) (hum tmp : Byte) (cs : Checksum) (tref : Tick) : State :=
  { State.reset with armed := armed, bit := bit, hum := hum, tmp := tmp, cs := cs, tref := tref }

/-- The state after the event word `w`. -/
def after (w : EventWord) (s : State) : State :=
  match step (s.present (.event w)) with
  | .next t => t
  | .fault _ => s
  | .refused _ => s

/-- V5, the example of R100: gap 299000, a hard resync. -/
theorem test_fall_resync : after 0x0000493E0 (at_ true 12 45 0 0 1000) = at_ true (-2) 0 0 0 300000 := by
  decide
/-- V5: gap 250000, no resync. -/
theorem test_fall_at_threshold :
    after 0x00003D478 (at_ true 12 45 0 0 1000) = at_ true 12 45 0 0 251000 := by decide

/-- V6: width 200 at position 32, the sentinel first and the fold second. -/
theorem test_rise_sentinel :
    after 0x10000012C (at_ true 32 45 23 0 100) = at_ true 33 45 23 257 100 := by decide
/-- V6: completion with a valid checksum. -/
theorem test_rise_completes : after 0x10000007E (at_ true 39 45 23 34 100) =
    { at_ false 40 45 23 68 100 with
      status := 1, resValid := true, resHum := 45, resTmp := 23, resTime := 126
      emitted := [.wd 0, .out ⟨.reading, 45, 23, 126⟩] } := by decide

/-- V7, the example of R102. -/
theorem test_wdt_timeout : after 0x200125B38 (at_ true 18 45 0 0 1002226) =
    { at_ false 18 45 0 0 1002226 with
      status := 3, emitted := [.wd 0, .out ⟨.timeout, 0, 0, 1203000⟩] } := by decide
/-- V7: not armed, only `WD(0)`. -/
theorem test_wdt_idle : after 0x200000009 State.reset = { State.reset with emitted := [.wd 0] } := by decide

/-- V8, the example of R140. -/
theorem test_arm_reset : after 0x3000F4240 State.reset =
    { at_ true (-2) 0 0 0 1000000 with emitted := [.wd 200] } := by decide
/-- V8: `ARM` while armed. -/
theorem test_arm_armed : after 0x300001388 (at_ true 17 45 1 0 55) =
    { at_ true (-2) 0 0 0 5000 with emitted := [.out ⟨.incomplete, 0, 0, 5000⟩, .wd 200] } := by decide

/-- V9, the example of R141. -/
theorem test_cancel_armed : after 0x4001E8480 (at_ true 5 0 0 0 1999000) =
    { at_ false 5 0 0 0 1999000 with
      status := 4, emitted := [.wd 0, .out ⟨.incomplete, 0, 0, 2000000⟩] } := by decide
/-- V9: not armed, only `WD(0)`. -/
theorem test_cancel_idle : after 0x400000009 State.reset = { State.reset with emitted := [.wd 0] } := by
  decide

/-- V10. -/
theorem test_rsv5 : after 0x50000007B (at_ true 5 2 0 0 3) = at_ true 5 2 0 0 3 := by decide
theorem test_rsv6 : after 0x60000007B State.reset = State.reset := by decide
theorem test_rsv7 : after 0x7FFFFFFFF { State.reset with status := 2 } = { State.reset with status := 2 } := by
  decide

/-- V11: `RESET` in the middle of a cycle. -/
theorem test_reset : runTrace [.reset] { at_ true 17 45 1 257 99 with resValid := true, resHum := 45 } =
    some ([], State.reset) := by decide

/-- The named states of R36, at three boundaries. -/
theorem test_named : State.reset.named = some .idle ∧ (at_ true (-1) 0 0 0 0).named = some .syncing ∧
    (at_ true 32 0 0 0 0).named = some .accumulatingChecksum ∧
    ({ State.reset with status := 4 } : State).named = some .complete := by decide

/-- `withFetchWord` presents the table's word to the very next step. -/
theorem test_fetch_word : (State.reset.withFetchWord 40 0x3000F4240).inputs =
    [.event 0x3000F4240] := by decide

/-! ## Witnesses: inputs that meet the hypotheses of the statements -/

/-- EventWordIsOpAndTick, DecodeEncodeAgree, OutcomeWordLayout: the ranges at their ends. -/
theorem witness_EventWordIsOpAndTick : (7 < 8 ∧ 2 ^ 32 - 1 < 2 ^ 32) ∧ (8 ≤ 8 ∨ 2 ^ 32 ≤ 0) ∧
    (8 ≤ 7 ∨ 2 ^ 32 ≤ 2 ^ 32) := by decide
theorem witness_DecodeEncodeAgree : 2 ^ 35 ≤ 2 ^ 35 := by decide
theorem witness_OutcomeWordLayout :
    OutcomeWord.ofBits 0x12D17000F5096 = .ok ⟨.reading, 45, 23, 1003670⟩ ∧
    (0 : OutcomeBits).toNat / 2 ^ 48 = 0 ∧ 5 ≤ (0x5000000000000 : OutcomeBits).toNat / 2 ^ 48 ∧
    5 ≤ (0x7FFFFFFFFFFFF : OutcomeBits).toNat / 2 ^ 48 := ⟨rfl, by decide, by decide, by decide⟩

/-- ResetInputResetsEveryRegister: both halves. -/
theorem witness_ResetInputResetsEveryRegister :
    ((at_ true 17 45 1 257 99).present .reset).inputs = .reset :: [] ∧
    ∃ s t : State, s.inputs.head? ≠ some .reset ∧ s.resValid = true ∧ step s = .next t :=
  ⟨rfl, { State.reset with resValid := true }, _, by decide, by decide, rfl⟩

/-- ResetDuringACycleGivesNoOutcome, and the armed half of the statements on `WDT`, `ARM`, `CANCEL`. -/
theorem witness_armed : (at_ true 17 45 1 257 99).armed = true := by decide

/-- The other half. -/
theorem witness_not_armed : State.reset.armed = false := by decide

/-- StepRunsTheDecodedEvent. -/
theorem witness_StepRunsTheDecodedEvent :
    (State.reset.present (.event 0x3000F4240)).inputs = .event 0x3000F4240 :: [] ∧
    State.reset.inputs = [] := by decide

/-- TraceIsTheFoldOfStep: an `ARM` and then a `CANCEL`. -/
theorem witness_TraceIsTheFoldOfStep : ∃ t u,
    runTrace (opTrace [.arm 5]) State.reset = some ([.wd 200], t) ∧
    runTrace (opTrace [.cancel 9]) t = some ([.wd 0, .out ⟨.incomplete, 0, 0, 9⟩], u) := ⟨_, _, rfl, rfl⟩

/-- FallRecordsAndResyncs: armed with a gap of 250000 and of 250001, and not armed. -/
theorem witness_FallRecordsAndResyncs :
    ((at_ true 12 45 0 0 1000).armed = true ∧ elapsed 1000 251000 ≤ 250000) ∧
    ((at_ true 12 45 0 0 1000).armed = true ∧ 250000 < elapsed 1000 251001) ∧
    (at_ false 12 45 0 0 1000).armed = false := by decide

/-- RiseDecodesOneBit: the five cases, at the indices -2, 38, 39 and 40. -/
theorem witness_RiseDecodesOneBit :
    (at_ false 3 0 0 0 0).armed = false ∧
    ((at_ true 40 0 0 0 0).armed = true ∧ 40 ≤ (at_ true 40 0 0 0 0).index) ∧
    ((at_ true 38 0 0 0 0).armed = true ∧ (at_ true 38 0 0 0 0).index ≤ 38) ∧
    ((at_ true (-2) 0 0 0 0).armed = true ∧ (at_ true (-2) 0 0 0 0).index ≤ 38) ∧
    ((at_ true 39 45 23 34 100).armed = true ∧ (at_ true 39 45 23 34 100).index = 39 ∧
      (csAfter (at_ true 39 45 23 34 100) (elapsed 100 126)).toNat = (45 + 23) % 256) ∧
    ((at_ true 39 45 23 34 100).armed = true ∧ (at_ true 39 45 23 34 100).index = 39 ∧
      (csAfter (at_ true 39 45 23 34 100) (elapsed 100 170)).toNat ≠ (45 + 23) % 256) := by decide

/-- UnreachableStatesAreDefined: the indices 40 and 63. -/
theorem witness_UnreachableStatesAreDefined :
    ((at_ true 40 0 0 0 0).armed = true ∧ 40 ≤ (at_ true 40 0 0 0 0).index) ∧
    ((at_ true 63 0 0 0 0).armed = true ∧ 40 ≤ (at_ true 63 0 0 0 0).index) := by decide

/-- TickDifferenceWraps, PulseWidthClasses, ChecksumFoldKeepsTheSentinel, ValidatorComparesTheSum: the
ends of their ranges. -/
theorem witness_TickDifferenceWraps : 2 ^ 32 - 1 < 2 ^ 32 := by decide
theorem witness_PulseWidthClasses : (49 : Tick).toNat ≤ 49 ∧
    (50 ≤ (50 : Tick).toNat ∧ (50 : Tick).toNat ≤ 199) ∧
    (50 ≤ (199 : Tick).toNat ∧ (199 : Tick).toNat ≤ 199) ∧ 200 ≤ (200 : Tick).toNat := by decide
theorem witness_ChecksumFoldKeepsTheSentinel : sentinelFlag 255 = false := by decide
theorem witness_ValidatorComparesTheSum : (44 : Checksum).toNat = ((200 : Byte).toNat + (100 : Byte).toNat) % 256 ∧
    (300 : Checksum).toNat ≠ ((200 : Byte).toNat + (100 : Byte).toNat) % 256 := by decide

/-- The statements whose one hypothesis is an event step (ArmedIsSetByArmAndClearedByOutcomes,
FrameStateHasThreeWriters, BitIndexMoves, AccumulatorsAreWrittenInTheirWindows, SentinelFlagIsSticky,
ReferenceTickHasTwoWriters, StatusFollowsTheOutcomes, LatchHoldsTheLastReading,
OutcomesOfEveryOperation, WatchdogCommandsOfEveryOperation, WatchdogCommandsArePaired): a step of every
operation, `FALL` with a gap of 250000 and 250001, `RISE` at index 38, 39 (both verdicts) and 40. -/
theorem witness_event_steps :
    (∃ s t, EventStep s (.fall 251000) t ∧ s.armed = true ∧ elapsed s.tref 251000 = 250000) ∧
    (∃ s t, EventStep s (.fall 251001) t ∧ s.armed = true ∧ elapsed s.tref 251001 = 250001) ∧
    (∃ s t, EventStep s (.rise 126) t ∧ s.armed = true ∧ s.index = 38) ∧
    (∃ s t, EventStep s (.rise 126) t ∧ .out ⟨.reading, 45, 23, 126⟩ ∈ t.emitted) ∧
    (∃ s t, EventStep s (.rise 170) t ∧ .out ⟨.checksumMismatch, 0, 0, 170⟩ ∈ t.emitted) ∧
    (∃ s t, EventStep s (.rise 60) t ∧ s.armed = true ∧ s.index = 40) ∧
    (∃ s t, EventStep s (.wdt 9) t ∧ s.armed = true) ∧ (∃ s t, EventStep s (.arm 9) t ∧ s.armed = true) ∧
    (∃ s t, EventStep s (.cancel 9) t ∧ s.armed = true) ∧
    (∃ s t, EventStep s (.rsv5 9) t ∧ s.armed = true) ∧ (∃ s t, EventStep s (.rsv6 9) t ∧ s.armed = true) ∧
    (∃ s t, EventStep s (.rsv7 9) t ∧ s.armed = true) :=
  ⟨⟨_, _, eventStep_present _ (at_ true 12 45 0 0 1000), by decide, by decide⟩,
    ⟨_, _, eventStep_present _ (at_ true 12 45 0 0 1000), by decide, by decide⟩,
    ⟨_, _, eventStep_present _ (at_ true 38 45 23 34 100), by decide, by decide⟩,
    ⟨_, _, eventStep_present _ (at_ true 39 45 23 34 100), by decide⟩,
    ⟨_, _, eventStep_present _ (at_ true 39 45 23 34 100), by decide⟩,
    ⟨_, _, eventStep_present _ (at_ true 40 0 0 0 0), by decide, by decide⟩,
    ⟨_, _, eventStep_present _ (at_ true 5 0 0 0 0), by decide⟩,
    ⟨_, _, eventStep_present _ (at_ true 5 0 0 0 0), by decide⟩,
    ⟨_, _, eventStep_present _ (at_ true 5 0 0 0 0), by decide⟩,
    ⟨_, _, eventStep_present _ (at_ true 5 0 0 0 0), by decide⟩,
    ⟨_, _, eventStep_present _ (at_ true 5 0 0 0 0), by decide⟩,
    ⟨_, _, eventStep_present _ (at_ true 5 0 0 0 0), by decide⟩⟩

/-- The same while no cycle is in progress. -/
theorem witness_event_steps_idle :
    (∃ s t, EventStep s (.fall 9) t ∧ s.armed = false) ∧ (∃ s t, EventStep s (.rise 9) t ∧ s.armed = false) ∧
    (∃ s t, EventStep s (.wdt 9) t ∧ s.armed = false) ∧ (∃ s t, EventStep s (.arm 9) t ∧ s.armed = false) ∧
    (∃ s t, EventStep s (.cancel 9) t ∧ s.armed = false) ∧ (∃ s t, EventStep s (.rsv5 9) t ∧ s.armed = false) ∧
    (∃ s t, EventStep s (.rsv6 9) t ∧ s.armed = false) ∧ (∃ s t, EventStep s (.rsv7 9) t ∧ s.armed = false) :=
  ⟨⟨_, _, eventStep_present _ State.reset, rfl⟩, ⟨_, _, eventStep_present _ State.reset, rfl⟩,
    ⟨_, _, eventStep_present _ State.reset, rfl⟩, ⟨_, _, eventStep_present _ State.reset, rfl⟩,
    ⟨_, _, eventStep_present _ State.reset, rfl⟩, ⟨_, _, eventStep_present _ State.reset, rfl⟩,
    ⟨_, _, eventStep_present _ State.reset, rfl⟩, ⟨_, _, eventStep_present _ State.reset, rfl⟩⟩

/-- ReferenceTickHasTwoWriters, second clause: `WDT` in two states that differ in `tref`. -/
theorem witness_ReferenceTickHasTwoWriters : isEdge (.wdt 9) = false ∧
    ∃ t u, exec (.wdt 9) (at_ true 5 0 0 0 1) = .next t ∧
      exec (.wdt 9) { at_ true 5 0 0 0 1 with tref := 2 } = .next u := ⟨by decide, _, _, rfl, rfl⟩

/-- EachPortIsDrivenAtMostOnce: a step that drives both ports. -/
theorem witness_EachPortIsDrivenAtMostOnce : ∃ s t, step s = .next t ∧
    t.emitted = [.wd 0, .out ⟨.timeout, 0, 0, 9⟩] :=
  ⟨(at_ true 5 0 0 0 0).present (opInput (.wdt 9)), _, rfl, by decide⟩

/-- LevelOutputsFollowTheOutcomes: `ARM` and `ARM` in two states with different FrameStates. -/
theorem witness_LevelOutputsFollowTheOutcomes : ∃ s t s' t', EventStep s (.arm 9) t ∧
    EventStep s' (.arm 9) t' ∧ s.levels = s'.levels ∧ outcomes t.emitted = outcomes t'.emitted :=
  ⟨_, _, _, _, eventStep_present _ (at_ true 5 3 0 0 0), eventStep_present _ (at_ true 7 9 1 0 4), by decide,
    by decide⟩

/-- The invariant holds of a state in the middle of a frame (NamedStateTransitions,
EveryStepKeepsTheInvariant). -/
theorem witness_Invariant : Invariant (at_ true 12 45 0 0 1000) :=
  ⟨⟨by decide, by decide, by decide, fun _ => by decide, fun _ => by decide, fun _ => by decide⟩,
    fun _ => ⟨fun h => absurd h (by decide), fun _ h => absurd h (by decide), fun _ => by decide,
      fun h => absurd h (by decide), fun _ => by decide, fun h => absurd h (by decide)⟩⟩
theorem witness_EveryStepKeepsTheInvariant : ∃ t, step (at_ true 12 45 0 0 1000) = .next t := ⟨_, rfl⟩

/-- ArmForgetsTheCycleBefore: two states with the same latch and different cycles. -/
theorem witness_ArmForgetsTheCycleBefore : SameLatch (at_ true 12 45 0 0 1000) State.reset :=
  ⟨rfl, rfl, rfl, rfl⟩

/-- The frame of the source's first scenario (P1), with `c` for its checksum byte. -/
def frame (c : Byte) : Frame := ⟨45, 0, 23, 0, c⟩

/-- Its pulses, of widths 30 and 80, then 26 or 70, 50 ticks apart (P1, P2). -/
def pulses (c : Byte) : List Pulse := framePulses 1000030 (frame c)

theorem witness_gaps (c : Byte) (h : c = 68 ∨ c = 69) : gapsShort (pulses c) := by
  rcases h with rfl | rfl <;> simp only [pulses, framePulses, frameWidths, preWidths, byteWidths, frame,
    List.cons_append, List.nil_append, pulsesFrom, gapsShort] <;> decide

/-- CorrectFrameGivesItsReading and WrongChecksumGivesAMismatch: P1's frame is well formed and its
checksum is the sum, and so is P2's but for the sum. -/
theorem witness_wellFormed (c : Byte) (h : c = 68 ∨ c = 69) : WellFormedPulses (frame c) (pulses c) := by
  refine ⟨rfl, ?_, fun i hi p hp => ?_, witness_gaps c h⟩
  · rcases h with rfl | rfl <;> decide
  · have key : ∀ k : Fin 40, ((pulses c)[k.val + 2]?).map (fun p => decide (50 ≤ p.width.toNat)) =
        some ((frame c).bitAt k.val) := by rcases h with rfl | rfl <;> decide
    have e := key ⟨i, hi⟩
    simp only [hp, Option.map_some, Option.some.injEq] at e
    rw [← e, decide_eq_true_iff]

theorem witness_CorrectFrameGivesItsReading : (∃ p, (pulses 68)[41]? = some p) ∧
    (frame 68).checksum = (frame 68).hum + (frame 68).tmp := ⟨⟨_, rfl⟩, by decide⟩
theorem witness_WrongChecksumGivesAMismatch : (∃ p, (pulses 69)[41]? = some p) ∧
    (frame 69).checksum ≠ (frame 69).hum + (frame 69).tmp := ⟨⟨_, rfl⟩, by decide⟩

/-- OneFlippedBitBreaksTheSum: the frame of P1 and the positions at the ends of the bytes. -/
theorem witness_OneFlippedBitBreaksTheSum : (frame 68).checksum = (frame 68).hum + (frame 68).tmp ∧
    ∀ i ∈ [0, 7, 8, 15, 16, 23, 24, 31, 32, 39], i < 40 := by decide

/-- ShortFrameNeverGivesAReading: 41 `RISE`s after an `ARM`. -/
theorem witness_ShortFrameNeverGivesAReading :
    (State.reset.armed = true → State.reset.index = -2) ∧
    ((frameOps 0 ((pulses 68).take 41)).filter isRise).length = 41 ∧
    (∃ outs t, runTrace (opTrace (frameOps 0 ((pulses 68).take 41))) State.reset = some (outs, t)) :=
  ⟨fun h => absurd h (by decide), by decide, ⟨_, _, runTrace_ops (frameOps 0 ((pulses 68).take 41)) _⟩⟩

set_option maxRecDepth 4000 in
/-- CyclesAreIndependent: the latches may agree, or the trace may give a reading: 42 `RISE`s at one tick
decode forty 0 bits (R117 (b), R131). Nothing shorter gives a reading after an `ARM`. -/
theorem witness_CyclesAreIndependent : State.reset.armed = false ∧
    SameLatch (at_ true 12 45 0 0 1000) State.reset ∧
    (runTrace (opTrace (.arm 0 :: List.replicate 42 (.rise 30))) State.reset).map (fun r =>
      (outcomes r.1).map fun o => o.kind) = some [.reading] := ⟨rfl, ⟨rfl, rfl, rfl, rfl⟩, by decide⟩

/-- LongPulsePoisonsTheAttempt: a pulse of 200 ticks at the last index and at the first, then a `FALL` 250000
ticks after the reference tick. -/
theorem witness_LongPulsePoisonsTheAttempt :
    ((at_ true (-2) 0 0 0 100).armed = true ∧ (at_ true (-2) 0 0 0 100).index ≤ 39 ∧
      200 ≤ elapsed 100 300 ∧ [Instr.fall 250100, .rise 250130].filter isArm = [] ∧
      fallsClose 100 [.fall 250100, .rise 250130]) ∧
    (at_ true 39 45 23 34 100).index ≤ 39 ∧ ∃ outs t,
      runTrace (opTrace [.rise 300, .fall 250100, .rise 250130]) (at_ true (-2) 0 0 0 100) = some (outs, t) :=
  ⟨⟨by decide, by decide, by decide, by decide, by decide, trivial⟩, by decide, _, _, runTrace_ops _ _⟩

/-- ResyncIsAFreshFrameInTheSameCycle. -/
theorem witness_ResyncIsAFreshFrameInTheSameCycle : (at_ true 12 45 0 0 1000).armed = true ∧
    250000 < elapsed 1000 251001 := by decide

/-- EdgesNeedNotAlternate: two `FALL`s, two `RISE`s at the highest index, `ARM` and a `RISE`. -/
theorem witness_EdgesNeedNotAlternate :
    (∃ s t u, EventStep s (.fall 5) t ∧ EventStep t (.fall 9) u ∧ s.armed = true) ∧
    (∃ s t u, EventStep s (.rise 126) t ∧ EventStep t (.rise 126) u ∧ s.armed = true ∧ s.index ≤ 37) ∧
    (∃ s t u, EventStep s (.arm 5) t ∧ EventStep t (.rise 9) u) :=
  ⟨⟨{ at_ true 3 0 0 0 0 with inputs := opTrace [.fall 5, .fall 9] }, _, _, ⟨_, _, rfl, by decide, rfl⟩,
      ⟨_, _, rfl, by decide, rfl⟩, rfl⟩,
    ⟨{ at_ true 37 0 0 0 0 with inputs := opTrace [.rise 126, .rise 126] }, _, _, ⟨_, _, rfl, by decide, rfl⟩,
      ⟨_, _, rfl, by decide, rfl⟩, rfl, by decide⟩,
    ⟨{ State.reset with inputs := opTrace [.arm 5, .rise 9] }, _, _, ⟨_, _, rfl, by decide, rfl⟩,
      ⟨_, _, rfl, by decide, rfl⟩⟩⟩

/-- TheOrderOfDeliveryDecides. -/
theorem witness_TheOrderOfDeliveryDecides : (at_ true 39 45 23 34 100).armed = true ∧
    (at_ true 39 45 23 34 100).index = 39 := by decide

/-- IdleFrameStateIsNeverSeen: two idle states with different FrameStates. -/
theorem witness_IdleFrameStateIsNeverSeen : (at_ false 40 45 23 68 1000).armed = false ∧
    AgreeOutsideFrame (at_ false 40 45 23 68 1000) State.reset :=
  ⟨rfl, ⟨rfl, rfl, rfl, rfl, rfl, rfl, rfl⟩⟩

/-- TimeCanBeTranslated, OneOutcomePerCycle, FailuresKeepTheLastReading, WatchdogCommandsArePaired: a trace
that ends in a failure, with and without a `RESET` before it. -/
theorem witness_traces : ∃ t u,
    runTrace (opTrace [.arm 5, .wdt 9]) State.reset = some ([.wd 200, .wd 0, .out ⟨.timeout, 0, 0, 9⟩], t) ∧
    runTrace (.reset :: opTrace [.arm 5, .wdt 9]) State.reset =
      some ([.wd 200, .wd 0, .out ⟨.timeout, 0, 0, 9⟩], u) ∧
    (∀ o, .out o ∈ [Output.wd 200, .wd 0, .out ⟨.timeout, 0, 0, 9⟩] → o.kind ≠ .reading) :=
  ⟨_, _, rfl, rfl, by simp⟩

/-- OneOutcomePerCycle, second clause: no `ARM`, no cycle. -/
theorem witness_OneOutcomePerCycle : State.reset.armed = false ∧ [Instr.wdt 9].filter isArm = [] := by decide

/-- CycleEndsAtTheLatestAtWdtCancelOrArm. -/
theorem witness_CycleEndsAtTheLatestAtWdtCancelOrArm : (at_ true 12 45 0 0 1000).armed = true ∧
    endsAnyCycle (.cancel 9) = true ∧ ∃ t,
      runTrace (opTrace ([.fall 1] ++ [.cancel 9])) (at_ true 12 45 0 0 0) =
        some ([.wd 0, .out ⟨.incomplete, 0, 0, 9⟩], t) := ⟨rfl, rfl, _, rfl⟩

/-- EdgesBeforeArmLeaveNoTrace. -/
theorem witness_EdgesBeforeArmLeaveNoTrace : State.reset.armed = false ∧
    ∀ i ∈ [Instr.fall 5, .rise 9, .rise 11], isEdge i = true := by decide

/-- EdgesAloneNeedNotEndACycle. -/
theorem witness_EdgesAloneNeedNotEndACycle : (at_ true (-2) 0 0 0 1000).armed = true ∧
    (at_ true (-2) 0 0 0 1000).index = -2 := by decide

end Sys2Proof.Tests
end

section
/-! PROOFS. The scope of the block (spec/00_scope.md): what a step runs, and how often it drives each
output port. -/

namespace Sys2Proof.Machine

/-! ## What a step runs -/

/-- Settles O9: the two cases of `step` for a presented event and for no input. -/
theorem stepRunsTheDecodedEvent : Obligations.StepRunsTheDecodedEvent := by
  unfold Obligations.StepRunsTheDecodedEvent
  refine ⟨fun s w rest h => ?_, fun s h => step_wait h⟩
  rw [step_event h, exec_eq]
  rfl

/-! ## What a step drives -/

/-- The lists of outputs a single step can drive: nothing, a watchdog command, the end of a cycle (R101,
R102, R141), or a cycle abandoned and the next one started (R143). -/
inductive StepOutputs : List Output → Prop where
  | silent : StepOutputs []
  | command (ms : WdCommand) : StepOutputs [.wd ms]
  | cycleEnd (o : OutcomeWord) : StepOutputs [.wd 0, .out o]
  | restart (o : OutcomeWord) : StepOutputs [.out o, .wd 200]

theorem afterOp_stepOutputs (i : Instr) {s : State} (h : s.emitted = []) :
    StepOutputs (afterOp i s).emitted := by
  cases i with
  | fall τ =>
    obtain ⟨-, e⟩ | ⟨-, -, e⟩ | ⟨-, -, e⟩ := afterOp_fall_cases s τ <;> simp only [e, h] <;>
      exact .silent
  | rise τ =>
    obtain ⟨-, e⟩ | ⟨-, -, e⟩ | ⟨-, -, -, e⟩ | ⟨-, -, -, e⟩ := afterOp_rise_cases s τ <;>
      simp only [e, h, List.nil_append]
    · exact .silent
    · exact .silent
    · exact .cycleEnd _
    · exact .cycleEnd _
  | wdt τ =>
    cases ha : s.armed
    · simpa [afterOp_wdt_idle τ ha, h] using StepOutputs.command 0
    · simpa [afterOp_wdt_open τ ha, h] using StepOutputs.cycleEnd _
  | cancel τ =>
    cases ha : s.armed
    · simpa [afterOp_cancel_idle τ ha, h] using StepOutputs.command 0
    · simpa [afterOp_cancel_open τ ha, h] using StepOutputs.cycleEnd _
  | arm τ =>
    cases ha : s.armed
    · simpa [afterOp_arm, ha, h] using StepOutputs.command 200
    · simpa [afterOp_arm, ha, h] using StepOutputs.restart _
  | rsv5 τ | rsv6 τ | rsv7 τ => exact h ▸ .silent

theorem step_stepOutputs {s t : State} (h : step s = .next t) : StepOutputs t.emitted := by
  obtain ⟨-, rfl⟩ | ⟨rest, -, rfl⟩ | ⟨w, rest, -, rfl⟩ := step_cases h
  · exact .silent
  · exact .silent
  · exact afterOp_stepOutputs _ (State.accept_emitted s rest)

theorem StepOutputs.wdCommands_length_le_one {l : List Output} (h : StepOutputs l) :
    (wdCommands l).length ≤ 1 := by
  cases h <;> simp [wdCommands]

theorem StepOutputs.outcomes_length_le_one {l : List Output} (h : StepOutputs l) :
    (outcomes l).length ≤ 1 := by
  cases h <;> simp [outcomes]

/-! ## What the ports show -/

/-- The first of at most one element is any element. -/
theorem head?_eq_some_iff_mem_of_length_le_one {α : Type} {l : List α} (h : l.length ≤ 1) (a : α) :
    l.head? = some a ↔ a ∈ l := by
  match l with
  | [] => simp
  | [b] => simp [eq_comm]

theorem wdPort_eq_some_iff {s : State} (h : (wdCommands s.emitted).length ≤ 1) (ms : WdCommand) :
    s.wdPort = some ms ↔ .wd ms ∈ s.emitted := by
  unfold State.wdPort
  rw [head?_eq_some_iff_mem_of_length_le_one h, mem_wdCommands]

theorem outPort_eq_some_iff {s : State} (h : (outcomes s.emitted).length ≤ 1) (v : OutcomeBits) :
    s.outPort = some v ↔ ∃ o, .out o ∈ s.emitted ∧ o.bits = v := by
  simp only [State.outPort, Option.map_eq_some_iff, head?_eq_some_iff_mem_of_length_le_one h,
    mem_outcomes]

/-- Settles O34, from the list of what a step can drive. -/
theorem eachPortIsDrivenAtMostOnce : Obligations.EachPortIsDrivenAtMostOnce := by
  unfold Obligations.EachPortIsDrivenAtMostOnce
  intro s t h
  have hwd := (step_stepOutputs h).wdCommands_length_le_one
  have hout := (step_stepOutputs h).outcomes_length_le_one
  exact ⟨hwd, hout, wdPort_eq_some_iff hwd, outPort_eq_some_iff hout⟩

end Sys2Proof.Machine
end

section
/-! PROOFS. The registers of the block (spec/10_state.md): what every step does to each of them, the
invariant of reachable states, the named states, and what runs keep. -/

namespace Sys2Proof.Machine

/-! ## What an event step can do -/

/-- The effects of an event step on `s`, one constructor per case of R100, R101, R102, R140, R141 and
R142; `EventStep.effect` says that there are no others. -/
inductive Effect (s : State) : Instr → State → Prop where
  | fallIgnored (τ : Tick) (rest : List Input) (idle : s.armed = false) :
      Effect s (.fall τ) { s with inputs := rest, emitted := [] }
  | fallRecorded (τ : Tick) (rest : List Input) (armed : s.armed = true)
      (short : elapsed s.tref τ ≤ 250000) :
      Effect s (.fall τ) { s with tref := τ, inputs := rest, emitted := [] }
  | resync (τ : Tick) (rest : List Input) (armed : s.armed = true)
      (long : 250000 < elapsed s.tref τ) :
      Effect s (.fall τ)
        { s with bit := -2, hum := 0, tmp := 0, cs := 0, tref := τ, inputs := rest, emitted := [] }
  | riseIgnored (τ : Tick) (rest : List Input) (ignored : ¬ (s.armed = true ∧ s.index ≤ 39)) :
      Effect s (.rise τ) { s with inputs := rest, emitted := [] }
  | counted (τ : Tick) (rest : List Input) (armed : s.armed = true) (before : s.index ≤ 38) :
      Effect s (.rise τ)
        { s with
          bit := BitVec.ofInt 7 (s.index + 1)
          hum := humAfter s (elapsed s.tref τ)
          tmp := tmpAfter s (elapsed s.tref τ)
          cs := csAfter s (elapsed s.tref τ)
          inputs := rest
          emitted := [] }
  | reading (τ : Tick) (rest : List Input) (armed : s.armed = true) (last : s.index = 39)
      (sum : sumMatches s (elapsed s.tref τ)) :
      Effect s (.rise τ)
        { s with
          armed := false
          bit := 40
          cs := csAfter s (elapsed s.tref τ)
          status := 1
          resValid := true
          resHum := s.hum
          resTmp := s.tmp
          resTime := τ
          inputs := rest
          emitted := [.wd 0, .out ⟨.reading, s.hum, s.tmp, τ⟩] }
  | mismatch (τ : Tick) (rest : List Input) (armed : s.armed = true) (last : s.index = 39)
      (sum : ¬ sumMatches s (elapsed s.tref τ)) :
      Effect s (.rise τ)
        { s with
          armed := false
          bit := 40
          cs := csAfter s (elapsed s.tref τ)
          status := 2
          inputs := rest
          emitted := [.wd 0, .out ⟨.checksumMismatch, 0, 0, τ⟩] }
  | timeout (τ : Tick) (rest : List Input) (armed : s.armed = true) :
      Effect s (.wdt τ)
        { s with
          armed := false, status := 3, inputs := rest
          emitted := [.wd 0, .out ⟨.timeout, 0, 0, τ⟩] }
  | wdtIdle (τ : Tick) (rest : List Input) (idle : s.armed = false) :
      Effect s (.wdt τ) { s with inputs := rest, emitted := [.wd 0] }
  | cancelled (τ : Tick) (rest : List Input) (armed : s.armed = true) :
      Effect s (.cancel τ)
        { s with
          armed := false, status := 4, inputs := rest
          emitted := [.wd 0, .out ⟨.incomplete, 0, 0, τ⟩] }
  | cancelIdle (τ : Tick) (rest : List Input) (idle : s.armed = false) :
      Effect s (.cancel τ) { s with inputs := rest, emitted := [.wd 0] }
  | restarted (τ : Tick) (rest : List Input) (armed : s.armed = true) :
      Effect s (.arm τ)
        { s with
          armed := true, bit := -2, hum := 0, tmp := 0, cs := 0, tref := τ, status := 0, inputs := rest
          emitted := [.out ⟨.incomplete, 0, 0, τ⟩, .wd 200] }
  | started (τ : Tick) (rest : List Input) (idle : s.armed = false) :
      Effect s (.arm τ)
        { s with
          armed := true, bit := -2, hum := 0, tmp := 0, cs := 0, tref := τ, status := 0, inputs := rest
          emitted := [.wd 200] }
  | rsv5 (τ : Tick) (rest : List Input) : Effect s (.rsv5 τ) { s with inputs := rest, emitted := [] }
  | rsv6 (τ : Tick) (rest : List Input) : Effect s (.rsv6 τ) { s with inputs := rest, emitted := [] }
  | rsv7 (τ : Tick) (rest : List Input) : Effect s (.rsv7 τ) { s with inputs := rest, emitted := [] }

theorem EventStep.effect {s t : State} {i : Instr} (h : EventStep s i t) : Effect s i t := by
  cases i with
  | fall τ =>
    obtain ⟨rest, ⟨idle, rfl⟩ | ⟨armed, short, rfl⟩ | ⟨armed, long, rfl⟩⟩ := h.fall_cases
    · exact .fallIgnored τ rest idle
    · exact .fallRecorded τ rest armed short
    · exact .resync τ rest armed long
  | rise τ =>
    obtain ⟨rest, ⟨ignored, rfl⟩ | ⟨armed, before, rfl⟩ | ⟨armed, last, sum, rfl⟩ |
      ⟨armed, last, sum, rfl⟩⟩ := h.rise_cases
    · refine .riseIgnored τ rest fun ⟨armed, before⟩ => ?_
      rcases ignored with idle | past
      · simp [idle] at armed
      · omega
    · exact .counted τ rest armed before
    · exact .reading τ rest armed last sum
    · exact .mismatch τ rest armed last sum
  | wdt τ =>
    obtain ⟨rest, ⟨armed, rfl⟩ | ⟨idle, rfl⟩⟩ := h.wdt_cases
    · exact .timeout τ rest armed
    · exact .wdtIdle τ rest idle
  | cancel τ =>
    obtain ⟨rest, ⟨armed, rfl⟩ | ⟨idle, rfl⟩⟩ := h.cancel_cases
    · exact .cancelled τ rest armed
    · exact .cancelIdle τ rest idle
  | arm τ =>
    obtain ⟨rest, ⟨armed, rfl⟩ | ⟨idle, rfl⟩⟩ := h.arm_cases
    · exact .restarted τ rest armed
    · exact .started τ rest idle
  | rsv5 τ => obtain ⟨rest, rfl⟩ := h.rsv5_eq; exact .rsv5 τ rest
  | rsv6 τ => obtain ⟨rest, rfl⟩ := h.rsv6_eq; exact .rsv6 τ rest
  | rsv7 τ => obtain ⟨rest, rfl⟩ := h.rsv7_eq; exact .rsv7 τ rest

/-! ## The invariant -/

/-- The invariant looks neither at the reference tick nor at the ports. -/
theorem invariant_withTref (s : State) (h : Invariant s) (τ : Tick) (q : List Input)
    (em : List Output) : Invariant { s with tref := τ, inputs := q, emitted := em } := by
  obtain ⟨⟨low, high, status, armedIndex, armedStatus, latch⟩, accumulating⟩ := h
  refine ⟨⟨low, high, status, armedIndex, armedStatus, latch⟩, fun armed => ?_⟩
  obtain ⟨hum0, hum, tmp0, tmp, cs0, cs⟩ := accumulating armed
  exact ⟨hum0, hum, tmp0, tmp, cs0, cs⟩

theorem OutcomeKind.code_toNat_le (k : OutcomeKind) : k.code.toNat ≤ 4 := by
  cases k <;> decide

/-- The state after an outcome meets the invariant if its index and its latch are legal: the bounds of
R115 are about states in which a cycle is in progress. -/
theorem invariant_of_ended {s : State} (k : OutcomeKind) (idle : s.armed = false)
    (status : s.status = k.code) (low : -2 ≤ s.index) (high : s.index ≤ 40)
    (latch : s.resValid = false → s.resHum = 0 ∧ s.resTmp = 0 ∧ s.resTime = 0) : Invariant s :=
  ⟨⟨low, high, status ▸ k.code_toNat_le, fun ha => by simp [idle] at ha,
      fun ha => by simp [idle] at ha, latch⟩,
    fun ha => by simp [idle] at ha⟩

/-- A fresh FrameState (R29) meets the invariant, whether a cycle is in progress or not. -/
theorem invariant_of_fresh {s : State} (index : s.index = -2) (hum : s.hum = 0) (tmp : s.tmp = 0)
    (cs : s.cs = 0) (status : s.status = 0)
    (latch : s.resValid = false → s.resHum = 0 ∧ s.resTmp = 0 ∧ s.resTime = 0) : Invariant s :=
  ⟨⟨by omega, by omega, by simp [status], fun _ => by omega, fun _ => status, latch⟩,
    fun _ => accumulating_fresh s index hum tmp cs⟩

/-- A `RISE` before the last position keeps the invariant. -/
theorem invariant_counted {s u : State} {d : Nat} (h : Invariant s) (armed : s.armed = true)
    (before : s.index ≤ 38) (index : u.index = s.index + 1) (hum : u.hum = humAfter s d)
    (tmp : u.tmp = tmpAfter s d) (cs : u.cs = csAfter s d) (status : u.status = s.status)
    (latch : u.resValid = false → u.resHum = 0 ∧ u.resTmp = 0 ∧ u.resTime = 0) : Invariant u := by
  have low := h.legal.indexLow
  have zero : u.status = 0 := status.trans (h.legal.armedStatus armed)
  exact ⟨⟨by omega, by omega, by simp [zero], fun _ => by omega, fun _ => zero, latch⟩,
    fun _ => accumulating_rise s u d index before hum tmp cs (h.accumulating armed)⟩

theorem Effect.keeps_invariant {s t : State} {i : Instr} (e : Effect s i t) (h : Invariant s) :
    Invariant t := by
  have latch := h.legal.latchEmpty
  have low := h.legal.indexLow
  have high := h.legal.indexHigh
  cases e with
  | fallIgnored | riseIgnored | wdtIdle | cancelIdle | rsv5 | rsv6 | rsv7 =>
    exact invariant_withPorts s h _ _
  | fallRecorded => exact invariant_withTref s h _ _ _
  | resync _ _ armed => exact invariant_of_fresh rfl rfl rfl rfl (h.legal.armedStatus armed) latch
  | restarted | started => exact invariant_of_fresh rfl rfl rfl rfl rfl latch
  | counted _ _ armed before =>
    exact invariant_counted h armed before (index_ofInt_succ before) rfl rfl rfl rfl latch
  | reading =>
    exact invariant_of_ended .reading rfl rfl (by simp [State.index]) (by simp [State.index]) nofun
  | mismatch =>
    exact invariant_of_ended .checksumMismatch rfl rfl (by simp [State.index])
      (by simp [State.index]) latch
  | timeout => exact invariant_of_ended .timeout rfl rfl low high latch
  | cancelled => exact invariant_of_ended .incomplete rfl rfl low high latch

theorem invariant_reset : Invariant State.reset :=
  invariant_of_fresh (by decide) rfl rfl rfl rfl fun _ => ⟨rfl, rfl, rfl⟩

/-- Settles O37: a step waits, resets or processes an event, and each effect of an event keeps the
invariant. -/
theorem everyStepKeepsTheInvariant : Obligations.EveryStepKeepsTheInvariant := by
  unfold Obligations.EveryStepKeepsTheInvariant
  intro s t h hs
  obtain ⟨-, rfl⟩ | ⟨rest, -, rfl⟩ | ⟨w, rest, hi, rfl⟩ := step_cases hs
  · exact invariant_withPorts s h _ _
  · exact invariant_withPorts State.reset invariant_reset rest []
  · exact (EventStep.effect ⟨w, rest, hi, rfl, hs⟩).keeps_invariant h

/-- Settles O38: the FrameState of reset is fresh. -/
theorem resetMeetsTheInvariant : Obligations.ResetMeetsTheInvariant := invariant_reset

/-! ## Register by register -/

/-- Settles O24: `ARM` sets `armed`, and of the other effects those with an outcome clear it. -/
theorem armedIsSetByArmAndClearedByOutcomes : Obligations.ArmedIsSetByArmAndClearedByOutcomes := by
  unfold Obligations.ArmedIsSetByArmAndClearedByOutcomes
  refine ⟨fun s i t h => ?_, fun s τ idle => ?_, fun s rest t hi hs => ?_, rfl⟩
  · cases h.effect with
    | restarted | started => rfl
    | reading | mismatch | timeout | cancelled | wdtIdle | cancelIdle | fallIgnored | fallRecorded
    | resync | riseIgnored | counted | rsv5 | rsv6 | rsv7 => simp [isArm, outcomes]
  · rw [exec_eq, exec_eq, afterOp_fall_idle τ idle, afterOp_rise_ignored τ (.inl idle)]
    exact ⟨rfl, rfl⟩
  · rw [step_reset hi] at hs
    cases hs
    rfl

/-- Settles O25: the effects that are no edge and no `ARM`, and those of an idle block but for `ARM`,
change no register of the FrameState. -/
theorem frameStateHasThreeWriters : Obligations.FrameStateHasThreeWriters := by
  unfold Obligations.FrameStateHasThreeWriters
  intro s i t h
  cases h.effect with
  | fallIgnored | riseIgnored | timeout | wdtIdle | cancelled | cancelIdle | rsv5 | rsv6 | rsv7 =>
    exact ⟨fun _ => ⟨rfl, rfl, rfl, rfl, rfl⟩, fun _ _ => ⟨rfl, rfl, rfl, rfl, rfl⟩⟩
  | fallRecorded _ _ armed | resync _ _ armed | counted _ _ armed | reading _ _ armed
  | mismatch _ _ armed => simp [isEdge, armed]
  | restarted | started => simp [isArm]

/-- Settles O26, effect by effect. -/
theorem bitIndexMoves : Obligations.BitIndexMoves := by
  unfold Obligations.BitIndexMoves
  intro s i t h
  cases h.effect with
  | fallIgnored _ _ idle => simp [State.index, idle]
  | fallRecorded _ _ armed short => simp [State.index, Nat.not_lt.2 short]
  | resync _ _ armed long => simp [State.index, armed, long]
  | riseIgnored _ _ ignored => exact (if_neg ignored).symm
  | counted _ _ armed before =>
    rw [if_pos ⟨armed, by omega⟩]
    exact index_ofInt_succ before
  | reading _ _ armed last | mismatch _ _ armed last =>
    rw [if_pos ⟨armed, by omega⟩, last]
    rfl
  | timeout | wdtIdle | cancelled | cancelIdle | restarted | started | rsv5 | rsv6 | rsv7 => rfl

/-- Settles O27, effect by effect; at the last position the windows of `hum` and `tmp` are past. -/
theorem accumulatorsAreWrittenInTheirWindows : Obligations.AccumulatorsAreWrittenInTheirWindows := by
  unfold Obligations.AccumulatorsAreWrittenInTheirWindows
  refine ⟨fun s i t h => ?_, rfl, rfl⟩
  cases h.effect with
  | fallIgnored _ _ idle => simp [idle]
  | fallRecorded _ _ armed short => simp [Nat.not_lt.2 short]
  | resync _ _ armed long => simp [armed, long]
  | riseIgnored _ _ ignored => exact (if_neg ignored).symm
  | counted _ _ armed before => exact (if_pos ⟨armed, by omega⟩).symm
  | reading _ _ armed last | mismatch _ _ armed last =>
    simp [armed, last, humAfter_last, tmpAfter_last]
  | timeout | wdtIdle | cancelled | cancelIdle | restarted | started | rsv5 | rsv6 | rsv7 => rfl

/-- Settles O28: a counted or completing `RISE` acts on the flag as `sentinelFlag_csAfter` says. -/
theorem sentinelFlagIsSticky : Obligations.SentinelFlagIsSticky := by
  unfold Obligations.SentinelFlagIsSticky
  intro s i t h
  cases h.effect with
  | fallIgnored _ _ idle => simp [idle]
  | fallRecorded _ _ armed short => simp [Nat.not_lt.2 short]
  | resync _ _ armed long => simp [armed, long, sentinelFlag]
  | riseIgnored _ _ ignored => exact (if_neg fun ⟨armed, before, _⟩ => ignored ⟨armed, before⟩).symm
  | counted _ _ armed before =>
    have : s.index ≤ 39 := by omega
    simp [sentinelFlag_csAfter, armed, this]
  | reading _ _ armed last | mismatch _ _ armed last => simp [sentinelFlag_csAfter, armed, last]
  | restarted | started => simp [sentinelFlag]
  | timeout | wdtIdle | cancelled | cancelIdle | rsv5 | rsv6 | rsv7 => rfl

/-- An operation other than an edge does not read `tref`. -/
theorem afterOp_withTref {i : Instr} (h : isEdge i = false) (s : State) (x : Tick) :
    { afterOp i { s with tref := x } with tref := (afterOp i s).tref } = afterOp i s := by
  cases i with
  | fall τ | rise τ => simp [isEdge] at h
  | wdt τ => rw [afterOp_wdt, afterOp_wdt]; cases s.armed <;> rfl
  | cancel τ => rw [afterOp_cancel, afterOp_cancel]; cases s.armed <;> rfl
  | arm τ => rw [afterOp_arm, afterOp_arm]
  | rsv5 τ | rsv6 τ | rsv7 τ => rfl

/-- Settles O29: the first clause effect by effect, the second by `afterOp_withTref`. -/
theorem referenceTickHasTwoWriters : Obligations.ReferenceTickHasTwoWriters := by
  unfold Obligations.ReferenceTickHasTwoWriters
  refine ⟨fun s i t h => ?_, fun i s t u x hi ht hu => ?_, rfl⟩
  · cases h.effect with
    | fallIgnored _ _ idle => simp [idle]
    | fallRecorded _ _ armed | resync _ _ armed => simp [armed]
    | riseIgnored | counted | reading | mismatch | timeout | wdtIdle | cancelled | cancelIdle
    | restarted | started | rsv5 | rsv6 | rsv7 => rfl
  · rw [exec_eq] at ht hu
    cases ht
    cases hu
    exact afterOp_withTref hi s x

/-- Settles O30, effect by effect. -/
theorem statusFollowsTheOutcomes : Obligations.StatusFollowsTheOutcomes := by
  unfold Obligations.StatusFollowsTheOutcomes
  refine ⟨fun s i t h => ?_, rfl⟩
  cases h.effect with
  | fallIgnored | fallRecorded | resync | riseIgnored | counted | wdtIdle | cancelIdle | rsv5 | rsv6
  | rsv7 => exact ⟨rfl, .inl rfl⟩
  | reading => exact ⟨rfl, .inr (OutcomeKind.code_toNat_le .reading)⟩
  | mismatch => exact ⟨rfl, .inr (OutcomeKind.code_toNat_le .checksumMismatch)⟩
  | timeout => exact ⟨rfl, .inr (OutcomeKind.code_toNat_le .timeout)⟩
  | cancelled => exact ⟨rfl, .inr (OutcomeKind.code_toNat_le .incomplete)⟩
  | restarted | started => exact ⟨rfl, .inr (Nat.zero_le 4)⟩

/-- Settles O31: of all effects only `reading` emits a `READING`, and it alone writes the latch. -/
theorem latchHoldsTheLastReading : Obligations.LatchHoldsTheLastReading := by
  unfold Obligations.LatchHoldsTheLastReading
  refine ⟨fun s i t h => ?_, rfl, rfl, rfl, rfl⟩
  cases h.effect with
  | reading => exact ⟨by simp, fun none => absurd rfl (none _ (.tail _ (.head _)))⟩
  | fallIgnored | fallRecorded | resync | riseIgnored | counted | wdtIdle | cancelIdle | started
  | mismatch | timeout | cancelled | restarted | rsv5 | rsv6 | rsv7 =>
    exact ⟨by simp +contextual, fun _ => ⟨rfl, rfl, rfl, rfl⟩⟩

/-- Settles O6: the values of R37, read off the reset state. -/
theorem resetLeavesTheTableValues : Obligations.ResetLeavesTheTableValues := by
  unfold Obligations.ResetLeavesTheTableValues
  decide

/-- Settles O46: both operations write the same five registers, and the resync nothing else. -/
theorem resyncIsAFreshFrameInTheSameCycle : Obligations.ResyncIsAFreshFrameInTheSameCycle := by
  unfold Obligations.ResyncIsAFreshFrameInTheSameCycle
  intro s τ armed long
  refine ⟨_, _, exec_eq _ _, exec_eq _ _, ?_⟩
  rw [afterOp_fall_long armed long, afterOp_arm]
  exact ⟨⟨rfl, rfl, rfl, rfl, rfl⟩, rfl, rfl⟩

/-! ## The named states -/

theorem named_of_idle {s : State} (idle : s.armed = false) :
    s.named = if s.status = 0 then some .idle else some .complete := by
  unfold State.named
  rw [idle]
  rfl

theorem named_idle_or_complete {s : State} (idle : s.armed = false) :
    s.named = some .idle ∨ s.named = some .complete := by
  rw [named_of_idle idle]
  split
  · exact .inl rfl
  · exact .inr rfl

theorem named_of_outcome {s : State} (k : OutcomeKind) (idle : s.armed = false)
    (status : s.status = k.code) : s.named = some .complete := by
  rw [named_of_idle idle, if_neg]
  rw [status]
  cases k <;> decide

theorem named_of_fresh {s : State} (armed : s.armed = true) (index : s.index = -2) :
    s.named = some .syncing := by
  simp [State.named, armed, index, (ofIndex_preamble (-2)).2 (by decide)]

/-- Settles O36: the rows of an idle block, then those of a cycle in progress, effect by effect. -/
theorem namedStateTransitions : Obligations.NamedStateTransitions := by
  unfold Obligations.NamedStateTransitions
  intro s i t inv h
  refine ⟨fun idle => ⟨named_idle_or_complete idle, ?_⟩, fun armed => ?_⟩
  · cases h.effect with
    | fallIgnored | riseIgnored | wdtIdle | cancelIdle | rsv5 | rsv6 | rsv7 => rfl
    | started => exact ⟨named_of_fresh rfl rfl, rfl, rfl, rfl, rfl, rfl, rfl⟩
    | fallRecorded _ _ armed | resync _ _ armed | counted _ _ armed | reading _ _ armed
    | mismatch _ _ armed | timeout _ _ armed | cancelled _ _ armed | restarted _ _ armed =>
      simp [idle] at armed
  cases h.effect with
  | fallIgnored _ _ idle | wdtIdle _ _ idle | cancelIdle _ _ idle | started _ _ idle =>
    simp [idle] at armed
  | fallRecorded _ _ _ short =>
    exact ⟨armed, rfl, rfl, fun _ => ⟨rfl, rfl⟩, fun long => absurd long (Nat.not_lt.2 short)⟩
  | resync _ _ _ long =>
    exact ⟨armed, rfl, rfl, fun short => absurd long (Nat.not_lt.2 short),
      fun _ => ⟨named_of_fresh armed rfl, rfl, rfl, rfl, rfl⟩⟩
  | riseIgnored _ _ ignored => exact absurd ⟨armed, inv.legal.armedIndex armed⟩ ignored
  | counted _ _ _ before =>
    exact ⟨fun _ => ⟨armed, index_ofInt_succ before, rfl⟩, fun last => by omega⟩
  | reading _ _ _ last sum =>
    exact ⟨fun before => by omega, fun _ => ⟨named_of_outcome .reading rfl rfl,
      fun _ => ⟨rfl, rfl⟩, fun no => absurd sum no⟩⟩
  | mismatch _ _ _ last sum =>
    exact ⟨fun before => by omega, fun _ => ⟨named_of_outcome .checksumMismatch rfl rfl,
      fun yes => absurd yes sum, fun _ => ⟨rfl, rfl⟩⟩⟩
  | timeout => exact ⟨named_of_outcome .timeout rfl rfl, rfl, rfl⟩
  | cancelled => exact ⟨named_of_outcome .incomplete rfl rfl, rfl, rfl⟩
  | restarted => exact ⟨named_of_fresh rfl rfl, rfl, rfl, rfl, rfl, rfl, rfl⟩
  | rsv5 | rsv6 | rsv7 => rfl

/-! ## The FrameState of an idle block -/

/-- Two states that agree outside the FrameState, and in it while a cycle is in progress: the states that
no port can ever tell apart. -/
structure Indistinguishable (s u : State) : Prop where
  outside : AgreeOutsideFrame s u
  frame : s.armed = true → SameFrame s u

/-- While a cycle is in progress, indistinguishable states differ in the outputs of the last step only. -/
theorem Indistinguishable.eq_of_armed {s u : State} (h : Indistinguishable s u)
    (armed : s.armed = true) : { s with emitted := [] } = { u with emitted := [] } := by
  obtain ⟨⟨h1, h2, h3, h4, h5, h6, h7⟩, frame⟩ := h
  obtain ⟨g1, g2, g3, g4, g5⟩ := frame armed
  simp only [h1, h2, h3, h4, h5, h6, h7, g1, g2, g3, g4, g5]

theorem Indistinguishable.refl (s : State) : Indistinguishable s s :=
  ⟨⟨rfl, rfl, rfl, rfl, rfl, rfl, rfl⟩, fun _ => ⟨rfl, rfl, rfl, rfl, rfl⟩⟩

/-- While no cycle is in progress an operation other than `ARM` changes no register: `WDT` and `CANCEL`
disarm the watchdog, and the others do nothing. -/
theorem afterOp_idle_eq {s : State} (idle : s.armed = false) {i : Instr} (hi : isArm i = false) :
    afterOp i s = { s with emitted := s.emitted ++ if endsAnyCycle i then [.wd 0] else [] } := by
  cases i with
  | fall τ => simp [afterOp_fall_idle τ idle, endsAnyCycle]
  | rise τ => simp [afterOp_rise_ignored τ (.inl idle), endsAnyCycle]
  | wdt τ => exact afterOp_wdt_idle τ idle
  | cancel τ => exact afterOp_cancel_idle τ idle
  | arm τ => simp [isArm] at hi
  | rsv5 τ | rsv6 τ | rsv7 τ => simp [afterOp, endsAnyCycle]

theorem exists_arm_of_isArm {i : Instr} (h : isArm i = true) : ∃ τ, i = .arm τ := by
  cases i with
  | arm τ => exact ⟨τ, rfl⟩
  | _ => cases h

/-- Two states that one input leads to give the same outputs and stay indistinguishable. -/
def AnswersAlike (t v : State) : Prop := t.emitted = v.emitted ∧ Indistinguishable t v

/-- The states after an operation on indistinguishable states. In an idle block all but `ARM` leave the
registers as they are, and `ARM` overwrites the FrameState. -/
theorem Indistinguishable.answersAlike_op {s u : State} (h : Indistinguishable s u) (i : Instr) :
    AnswersAlike (afterOp i { s with emitted := [] }) (afterOp i { u with emitted := [] }) := by
  rcases Bool.eq_false_or_eq_true s.armed with ha | ha
  · rw [h.eq_of_armed ha]
    exact ⟨rfl, .refl _⟩
  obtain ⟨armed, status, resValid, resHum, resTmp, resTime, inputs⟩ := h.outside
  rcases Bool.eq_false_or_eq_true (isArm i) with hi | hi
  · obtain ⟨τ, rfl⟩ := exists_arm_of_isArm hi
    rw [afterOp_arm, afterOp_arm]
    exact ⟨by simp only [armed], ⟨rfl, rfl, resValid, resHum, resTmp, resTime, inputs⟩,
      fun _ => ⟨rfl, rfl, rfl, rfl, rfl⟩⟩
  · have hu : u.armed = false := armed ▸ ha
    rw [afterOp_idle_eq (by exact ha) hi, afterOp_idle_eq (by exact hu) hi]
    exact ⟨rfl, ⟨armed, status, resValid, resHum, resTmp, resTime, inputs⟩, fun busy =>
      have ⟨bit, hum, tmp, cs, tref⟩ := h.frame busy
      ⟨bit, hum, tmp, cs, tref⟩⟩

theorem Indistinguishable.answersAlike {s u : State} (h : Indistinguishable s u) (i : Input) :
    AnswersAlike (afterInput i s) (afterInput i u) := by
  cases i with
  | event w => exact h.answersAlike_op (decode w)
  | reset =>
    have same : afterInput .reset s = afterInput .reset u := by
      simp only [afterInput, h.outside.inputs]
    exact same ▸ ⟨rfl, .refl _⟩

theorem Indistinguishable.runInputs {s u : State} (h : Indistinguishable s u) (ins : List Input) :
    (runInputs ins s).1 = (runInputs ins u).1 ∧
      Indistinguishable (runInputs ins s).2 (runInputs ins u).2 := by
  induction ins generalizing s u with
  | nil => exact ⟨rfl, h⟩
  | cons i rest ih =>
    obtain ⟨emitted, next⟩ := h.answersAlike i
    obtain ⟨outs, last⟩ := ih next
    exact ⟨congrArg₂ (· ++ ·) emitted outs, last⟩

/-- Settles O50: idle states that agree outside the FrameState are indistinguishable, and stay so. -/
theorem idleFrameStateIsNeverSeen : Obligations.IdleFrameStateIsNeverSeen := by
  unfold Obligations.IdleFrameStateIsNeverSeen
  intro s u ins idle outside
  have start : Indistinguishable s u := ⟨outside, fun armed => by simp [idle] at armed⟩
  obtain ⟨outs, last⟩ := start.runInputs ins
  exact ⟨_, _, _, runTrace_eq ins s, outs ▸ runTrace_eq ins u, last.outside⟩

/-! ## The watchdog commands -/

/-- The last of the watchdog commands tells whether a cycle is open after them; with no command nothing
changed. -/
def CommandsTell (before after : Bool) (commands : List WdCommand) : Prop :=
  match commands.getLast? with
  | none => after = before
  | some ms => if after then ms = 200 else ms = 0

theorem CommandsTell.append {a b c : Bool} {l m : List WdCommand} (hl : CommandsTell a b l)
    (hm : CommandsTell b c m) : CommandsTell a c (l ++ m) := by
  unfold CommandsTell at *
  rw [List.getLast?_append]
  cases h : m.getLast? with
  | some ms => simpa [h] using hm
  | none =>
    have same : c = b := by simpa [h] using hm
    simpa [same] using hl

theorem Effect.commandsTell {s t : State} {i : Instr} (e : Effect s i t) :
    CommandsTell s.armed t.armed (wdCommands t.emitted) := by
  cases e with
  | fallIgnored | fallRecorded | resync | riseIgnored | counted | reading | mismatch | timeout
  | cancelled | restarted | started | rsv5 | rsv6 | rsv7 => rfl
  | wdtIdle _ _ idle | cancelIdle _ _ idle => simp [CommandsTell, wdCommands, idle]

theorem runOps_commandsTell (ops : List Instr) (s : State) :
    CommandsTell s.armed (runOps ops s).2.armed (wdCommands (runOps ops s).1) := by
  induction ops generalizing s with
  | nil => rfl
  | cons i rest ih =>
    have first := (eventStep_present i s).effect.commandsTell
    simp only [runOps, wdCommands_append]
    exact first.append (ih _)

/-- Settles O55: the clauses about a step effect by effect, the last by `runOps_commandsTell`. -/
theorem watchdogCommandsArePaired : Obligations.WatchdogCommandsArePaired := by
  unfold Obligations.WatchdogCommandsArePaired
  refine ⟨fun s i t h => ?_, fun ops s t outs h => ?_⟩
  · cases h.effect with
    | restarted | started | reading | mismatch | timeout | cancelled | wdtIdle | cancelIdle =>
      simp [isArm]
    | fallIgnored | fallRecorded | resync | riseIgnored | counted | rsv5 | rsv6 | rsv7 =>
      simp +contextual [isArm]
  · have run : runOps ops s = (outs, t) := Option.some.inj ((runTrace_ops ops s).symm.trans h)
    have tell := runOps_commandsTell ops s
    rw [run] at tell
    exact tell

end Sys2Proof.Machine
end

section
/-! PROOFS. Sequences of inputs (spec/20_memory.md): what a block does with inputs that wait on its port,
and the accumulator that a whole byte is folded into. -/

namespace Sys2Proof.Machine

/-! ## The fold of `step` -/

/-- A step takes the first of the inputs put before those already waiting, and leaves the rest of them. -/
theorem step_queued (i : Input) (rest : List Input) (s : State) :
    step { s with inputs := i :: rest ++ s.inputs } =
      .next { afterInput i s with inputs := rest ++ (afterInput i s).inputs } := by
  rw [afterInput_inputs, ← afterInput_withInputs]
  exact step_present i { s with inputs := rest ++ s.inputs }

/-- A run of the host's machine is a step and then the rest of the run. -/
theorem core_run_succ {s t : State} (h : step s = .next t) (k : Nat) :
    Host.Core.run Sys2Proof.core (k + 1) s = Host.Core.run Sys2Proof.core k t := by
  have core_step : Sys2Proof.core.step s = .next t := h
  simp only [Host.Core.run, core_step]

/-- As many steps as inputs were put before those already waiting take exactly these. -/
theorem core_run_queued (ins : List Input) (s : State) :
    Host.Core.run Sys2Proof.core ins.length { s with inputs := ins ++ s.inputs } =
      .next (runInputs ins s).2 := by
  induction ins generalizing s with
  | nil => rfl
  | cons i rest ih => exact (core_run_succ (step_queued i rest s) _).trans (ih (afterInput i s))

/-- Settles O11, by induction over the inputs: `core_run_queued` and `runInputs_append`. -/
theorem traceIsTheFoldOfStep : Obligations.TraceIsTheFoldOfStep := by
  unfold Obligations.TraceIsTheFoldOfStep
  refine ⟨fun ins s => ⟨_, _, runTrace_eq ins s, core_run_queued ins s⟩, fun a b s t u o p ha hb => ?_⟩
  have first : runInputs a s = (o, t) := Option.some.inj ((runTrace_eq a s).symm.trans ha)
  have second : runInputs b t = (p, u) := Option.some.inj ((runTrace_eq b t).symm.trans hb)
  rw [runTrace_eq, runInputs_append, first, second]

/-! ## Folding a byte -/

/-- The folded bit becomes the lowest one. -/
theorem getLsbD_fold8_zero (acc : Byte) (b : Bool) : (fold8 acc b).getLsbD 0 = b :=
  BitVec.getLsbD_append.trans (by simp)

/-- Every other bit moves up one place. -/
theorem getLsbD_fold8_succ (acc : Byte) (b : Bool) {k : Nat} (h : k < 7) :
    (fold8 acc b).getLsbD (k + 1) = acc.getLsbD k :=
  BitVec.getLsbD_append.trans (by simp [h])

/-- Settles O22, bit by bit: the bit that `k` more folds follow has moved up to place `k`. -/
theorem eightFoldsGiveTheByteFirstBitHighest : Obligations.EightFoldsGiveTheByteFirstBitHighest := by
  unfold Obligations.EightFoldsGiveTheByteFirstBitHighest
  intro acc v
  refine BitVec.eq_of_getLsbD_eq fun k hk => ?_
  interval_cases k <;>
    simp only [List.foldl_cons, List.foldl_nil, getLsbD_fold8_zero, getLsbD_fold8_succ,
      Nat.reduceLT]

end Sys2Proof.Machine
end

section
/-! PROOFS. Words, ports and pseudo-operations (spec/30_encoding.md): the event word with its decoder, the
outcome word with its decoder, the watchdog commands, the level outputs and `FRAME`. -/

namespace Sys2Proof.Machine

/-! ## The event word -/

theorem bitVec3_cases : ∀ c : BitVec 3, c = 0b000 ∨ c = 0b001 ∨ c = 0b010 ∨ c = 0b011 ∨
    c = 0b100 ∨ c = 0b101 ∨ c = 0b110 ∨ c = 0b111 := by
  decide

/-- The table of R72 has a row for every code. -/
theorem exists_instr_of_code (c : BitVec 3) (τ : Tick) : ∃ i : Instr, i.opcode = c ∧ i.tick = τ := by
  obtain rfl | rfl | rfl | rfl | rfl | rfl | rfl | rfl := bitVec3_cases c
  · exact ⟨.fall τ, rfl, rfl⟩
  · exact ⟨.rise τ, rfl, rfl⟩
  · exact ⟨.wdt τ, rfl, rfl⟩
  · exact ⟨.arm τ, rfl, rfl⟩
  · exact ⟨.cancel τ, rfl, rfl⟩
  · exact ⟨.rsv5 τ, rfl, rfl⟩
  · exact ⟨.rsv6 τ, rfl, rfl⟩
  · exact ⟨.rsv7 τ, rfl, rfl⟩

/-- A word is its field `op` above its field `tick` (R71). -/
theorem opField_append_tickField (w : EventWord) : w.extractLsb' 32 3 ++ tickField w = w :=
  (BitVec.extractLsb'_append_extractLsb'_eq_extractLsb' rfl).trans BitVec.extractLsb'_eq_self

/-- Every event word is the word of an operation (R75). -/
theorem exists_encode_eq (w : EventWord) : ∃ i, encode i = w := by
  obtain ⟨i, code, tick⟩ := exists_instr_of_code (w.extractLsb' 32 3) (tickField w)
  refine ⟨i, ?_⟩
  rw [encode, code, tick]
  exact opField_append_tickField w

theorem encode_decode (w : EventWord) : encode (decode w) = w := by
  obtain ⟨i, rfl⟩ := exists_encode_eq w
  rw [decode_encode]

theorem decodeNumber_toNat (w : EventWord) : decodeNumber w.toNat = .ok (decode w) := by
  have fits : fitsEventPort w.toNat = true := decide_eq_true w.isLt
  rw [decodeNumber, if_pos fits, BitVec.ofNat_toNat, BitVec.setWidth_eq]

theorem decodeNumber_tooWide {n : Nat} (h : 2 ^ 35 ≤ n) :
    decodeNumber n = .error .widerThanEventPort := by
  have wide : ¬ fitsEventPort n = true := fun fits => Nat.not_lt.2 h (of_decide_eq_true fits)
  rw [decodeNumber, if_neg wide]

theorem decodeTableWord_toNat (w : EventWord) : decodeTableWord 40 w.toNat = some (decode w) := by
  have narrow : w.toNat % 2 ^ 40 = w.toNat := Nat.mod_eq_of_lt (by omega)
  rw [decodeTableWord, narrow, decodeNumber_toNat]

/-- Settles O3: `decode` is a left inverse of `encode`, and `encode` reaches every word. -/
theorem decodeEncodeAgree : Obligations.DecodeEncodeAgree := by
  unfold Obligations.DecodeEncodeAgree
  refine ⟨decode_encode, encode_decode, fun i => ?_, fun n h => decodeNumber_tooWide h⟩
  rw [decodeTableWord_toNat, decode_encode]

/-- Settles O1: each word is the encoding of its operation. -/
theorem operationCodesDecode : Obligations.OperationCodesDecode := by
  unfold Obligations.OperationCodesDecode
  intro t
  exact ⟨decode_encode (.fall t), decode_encode (.rise t), decode_encode (.wdt t),
    decode_encode (.arm t), decode_encode (.cancel t), decode_encode (.rsv5 t),
    decode_encode (.rsv6 t), decode_encode (.rsv7 t)⟩

/-! ## The trace line -/

theorem event_wellFormed_iff (op tick : Nat) :
    (TraceLine.event op tick).wellFormed = true ↔ op < 8 ∧ tick < 2 ^ 32 := by
  simp [TraceLine.wellFormed]

/-- Settles O2: the layout by `encodeLayout_any`, the trace lines by `event_wellFormed_iff`. -/
theorem eventWordIsOpAndTick : Obligations.EventWordIsOpAndTick := by
  unfold Obligations.EventWordIsOpAndTick
  refine ⟨fun i => ?_, fun op tick code range => ?_, fun op tick outside => ?_⟩
  · obtain ⟨layout, -, -⟩ := Laws.encodeLayout_any i
    exact layout
  · exact if_pos ((event_wellFormed_iff op tick).2 ⟨code, range⟩)
  · refine if_neg fun wellFormed => ?_
    obtain ⟨code, range⟩ := (event_wellFormed_iff op tick).1 wellFormed
    omega

/-! ## The outcome word -/

theorem OutcomeKind.ofCode_eq_some_iff (c : KindCode) (k : OutcomeKind) :
    OutcomeKind.ofCode c = some k ↔ k.code = c := by
  revert c
  cases k <;> decide

/-- The codes of no kind of the block (R81). -/
theorem OutcomeKind.ofCode_eq_none_iff (c : KindCode) :
    OutcomeKind.ofCode c = none ↔ c.toNat = 0 ∨ 5 ≤ c.toNat := by
  revert c
  decide

/-- Two fields of any widths side by side, as one number. -/
theorem append_toNat {m n : Nat} (x : BitVec m) (y : BitVec n) :
    (x ++ y).toNat = x.toNat * 2 ^ n + y.toNat := by
  rw [BitVec.toNat_append, ← Nat.shiftLeft_add_eq_or_of_lt y.isLt, Nat.shiftLeft_eq]

theorem OutcomeWord.bits_toNat (o : OutcomeWord) : o.bits.toNat =
    o.kind.code.toNat * 2 ^ 48 + o.hum.toNat * 2 ^ 40 + o.tmp.toNat * 2 ^ 32 + o.time.toNat := by
  simp only [OutcomeWord.bits, append_toNat]
  omega

/-- An outcome word is its four fields side by side (R80). -/
theorem outcomeFields_append (v : OutcomeBits) :
    v.extractLsb' 48 3 ++ v.extractLsb' 40 8 ++ v.extractLsb' 32 8 ++ v.extractLsb' 0 32 = v := by
  have kindHum : v.extractLsb' 48 3 ++ v.extractLsb' 40 8 = v.extractLsb' 40 11 :=
    BitVec.extractLsb'_append_extractLsb'_eq_extractLsb' rfl
  have kindTmp : v.extractLsb' 40 11 ++ v.extractLsb' 32 8 = v.extractLsb' 32 19 :=
    BitVec.extractLsb'_append_extractLsb'_eq_extractLsb' rfl
  have whole : v.extractLsb' 32 19 ++ v.extractLsb' 0 32 = v.extractLsb' 0 51 :=
    BitVec.extractLsb'_append_extractLsb'_eq_extractLsb' rfl
  rw [kindHum, kindTmp, whole, BitVec.extractLsb'_eq_self]

/-- A field of a word as a number. -/
theorem outcomeField_toNat (v : OutcomeBits) (start len : Nat) :
    (v.extractLsb' start len).toNat = v.toNat / 2 ^ start % 2 ^ len := by
  rw [BitVec.extractLsb'_toNat, Nat.shiftRight_eq_div_pow]

/-- The fields of the word of an outcome, where R80 puts them. -/
theorem OutcomeWord.bits_fields (o : OutcomeWord) :
    o.bits.extractLsb' 48 3 = o.kind.code ∧ o.bits.extractLsb' 40 8 = o.hum ∧
    o.bits.extractLsb' 32 8 = o.tmp ∧ o.bits.extractLsb' 0 32 = o.time := by
  simp only [← BitVec.toNat_inj, outcomeField_toNat, o.bits_toNat]
  omega

/-- A word decodes to the outcomes whose word it is, and to no other. -/
theorem OutcomeWord.ofBits_eq_ok_iff (v : OutcomeBits) (o : OutcomeWord) :
    OutcomeWord.ofBits v = .ok o ↔ o.bits = v := by
  refine ⟨fun h => ?_, ?_⟩
  · unfold OutcomeWord.ofBits at h
    split at h
    next k hk =>
      cases h
      have code := (OutcomeKind.ofCode_eq_some_iff _ k).1 hk
      rw [OutcomeWord.bits, code]
      exact outcomeFields_append v
    next => cases h
  · rintro rfl
    obtain ⟨kind, hum, tmp, time⟩ := o.bits_fields
    have known := (OutcomeKind.ofCode_eq_some_iff _ o.kind).2 rfl
    rw [OutcomeWord.ofBits, kind, known, hum, tmp, time]

theorem kindField_toNat (v : OutcomeBits) : (v.extractLsb' 48 3).toNat = v.toNat / 2 ^ 48 := by
  rw [outcomeField_toNat]
  omega

theorem OutcomeWord.ofBits_neverEmitted {v : OutcomeBits}
    (h : v.toNat / 2 ^ 48 = 0 ∨ 5 ≤ v.toNat / 2 ^ 48) :
    OutcomeWord.ofBits v = .error (.kindNeverEmitted (v.extractLsb' 48 3)) := by
  rw [← kindField_toNat, ← OutcomeKind.ofCode_eq_none_iff] at h
  rw [OutcomeWord.ofBits, h]

/-- Settles O5: the layout as a number, and the decoder by what it decodes and by what it refuses. -/
theorem outcomeWordLayout : Obligations.OutcomeWordLayout := by
  unfold Obligations.OutcomeWordLayout
  exact ⟨OutcomeWord.bits_toNat, fun o => (OutcomeWord.ofBits_eq_ok_iff o.bits o).2 rfl,
    fun v o => (OutcomeWord.ofBits_eq_ok_iff v o).1, fun v => OutcomeWord.ofBits_neverEmitted⟩

/-! ## The watchdog commands -/

/-- Settles O33, effect by effect. -/
theorem watchdogCommandsOfEveryOperation : Obligations.WatchdogCommandsOfEveryOperation := by
  unfold Obligations.WatchdogCommandsOfEveryOperation
  intro s i t h
  cases h.effect with
  | riseIgnored _ _ ignored =>
    exact (if_neg fun ⟨armed, last⟩ => ignored ⟨armed, by omega⟩).symm
  | counted _ _ _ before => exact (if_neg fun ⟨_, last⟩ => by omega).symm
  | reading _ _ armed last | mismatch _ _ armed last => exact (if_pos ⟨armed, last⟩).symm
  | fallIgnored | fallRecorded | resync | timeout | wdtIdle | cancelled | cancelIdle | restarted
  | started | rsv5 | rsv6 | rsv7 => rfl

/-! ## The level outputs -/

/-- The level outputs after a step, from those before it, whether it is an `ARM`, and its outcomes (R83):
`Effect.levels_eq` says that a step drives these. -/
def levelsAfter (v : Levels) : (arm : Bool) → List OutcomeWord → Levels
  | true, _ => { v with armed := 1, status := 0 }
  | false, [] => v
  | false, ⟨.reading, hum, tmp, time⟩ :: _ => ⟨0, 1, 1, hum, tmp, time⟩
  | false, ⟨.checksumMismatch, _, _, _⟩ :: _ => { v with armed := 0, status := 2 }
  | false, ⟨.timeout, _, _, _⟩ :: _ => { v with armed := 0, status := 3 }
  | false, ⟨.incomplete, _, _, _⟩ :: _ => { v with armed := 0, status := 4 }

theorem Effect.levels_eq {s t : State} {i : Instr} (e : Effect s i t) :
    t.levels = levelsAfter s.levels (isArm i) (outcomes t.emitted) := by
  cases e with
  | fallIgnored | fallRecorded | resync | riseIgnored | counted | reading | mismatch | timeout
  | wdtIdle | cancelled | cancelIdle | restarted | started | rsv5 | rsv6 | rsv7 => rfl

/-- Settles O35: the levels after a step are a function of what the statement holds equal. -/
theorem levelOutputsFollowTheOutcomes : Obligations.LevelOutputsFollowTheOutcomes := by
  unfold Obligations.LevelOutputsFollowTheOutcomes
  intro s i t s' i' t' h h' levels arm outs
  rw [h.effect.levels_eq, h'.effect.levels_eq, levels, arm, outs]

/-! ## `FRAME` -/

theorem frameWidths_length (f : Frame) : (frameWidths f).length = 42 := rfl

theorem framePulses_widths (t : Tick) (f : Frame) :
    (framePulses t f).map Pulse.width = frameWidths f :=
  pulsesFrom_widths 50 t (frameWidths f)

/-- `BIT1` is a 1 and `BIT0` a 0 to the discriminator of R104. -/
theorem bitWidth_ge_iff (b : Bool) : 50 ≤ (bitWidth b).toNat ↔ b = true := by
  revert b
  decide

/-- Settles O43: the widths of the pulses are those of `FRAME`, at most 80 ticks. -/
theorem framePseudoOperationIsWellFormed : Obligations.FramePseudoOperationIsWellFormed := by
  unfold Obligations.FramePseudoOperationIsWellFormed
  intro t f
  have widths := framePulses_widths t f
  refine ⟨?count, fun p hp => ?belowSync, fun i hi p hp => ?bits, ?gaps⟩
  case count => rw [← List.length_map, widths, frameWidths_length]
  case belowSync =>
    have width : p.width ∈ frameWidths f := widths ▸ List.mem_map_of_mem hp
    have := frameWidths_le f p.width width
    omega
  case bits =>
    have width : (frameWidths f)[i + 2]? = some p.width := by
      rw [← widths, List.getElem?_map, hp, Option.map_some]
    rw [frameWidths_getElem f i hi] at width
    rw [← Option.some.inj width]
    exact bitWidth_ge_iff (f.bitAt i)
  case gaps => exact pulsesFrom_gaps t _ fun d hd => (frameWidths_le f d hd).trans (by decide)

end Sys2Proof.Machine
end

section
/-! PROOFS. The pulse decoder (spec/40_pulse_decoder.md): the tick difference, the discriminator and the
fold into `cs`, the three operations of the Edge Source, and sequences of edges that are no pulses. -/

namespace Sys2Proof.Machine

/-! ## The parts -/

/-- Settles O19: the number of the difference is `tickDelta_toNat`, its invariance
`tickDelta_add_right`. -/
theorem tickDifferenceWraps : Obligations.TickDifferenceWraps := by
  unfold Obligations.TickDifferenceWraps
  refine ⟨tickDelta_toNat, rfl, BitVec.sub_self, tickDelta_add_right, fun a n hn => ?_⟩
  have later : tickDelta a (a + BitVec.ofNat 32 n) = BitVec.ofNat 32 n := add_sub_cancel_left a _
  rw [later, BitVec.toNat_ofNat, Nat.mod_eq_of_lt hn]

/-- The discriminator compares the width with the two thresholds (R104, R105). -/
theorem classify_eq (d : Tick) : classify d = (decide (50 ≤ d.toNat), decide (200 ≤ d.toNat)) := by
  rw [classify, pulseBit_eq, pulseSync_eq]

/-- Settles O20: in each row both comparisons of `classify_eq` are decided. -/
theorem pulseWidthClasses : Obligations.PulseWidthClasses := by
  unfold Obligations.PulseWidthClasses
  intro d
  simp only [classify_eq, Prod.mk.injEq, decide_eq_true_eq, decide_eq_false_iff_not]
  omega

theorem checksumByte_toNat (cs : Checksum) : (checksumByte cs).toNat = cs.toNat % 256 := by
  simp [checksumByte]

theorem sentinelFlag_eq_true_iff (cs : Checksum) : sentinelFlag cs = true ↔ 256 ≤ cs.toNat := by
  rw [sentinelFlag_eq, decide_eq_true_eq]

theorem sentinelFlag_foldCs (cs : Checksum) (b : Bool) :
    sentinelFlag (foldCs cs b) = sentinelFlag cs := by
  rw [Bool.eq_iff_iff, sentinelFlag_eq_true_iff, sentinelFlag_eq_true_iff, foldCs_toNat]
  omega

theorem foldCs_of_flag_clear {cs : Checksum} (b : Bool) (clear : sentinelFlag cs = false) :
    foldCs cs b = (fold8 (checksumByte cs) b).setWidth 9 := by
  have low : cs.toNat < 256 := by simpa [sentinelFlag_eq] using clear
  rw [← BitVec.toNat_inj, foldCs_toNat, BitVec.toNat_setWidth, fold8_eq, BitVec.toNat_ofNat,
    checksumByte_toNat]
  omega

/-- Settles O21, from the fold as a number. -/
theorem checksumFoldKeepsTheSentinel : Obligations.ChecksumFoldKeepsTheSentinel := by
  unfold Obligations.ChecksumFoldKeepsTheSentinel
  exact fun cs b => ⟨foldCs_toNat cs b, sentinelFlag_foldCs cs b, sentinelFlag_eq_true_iff cs,
    foldCs_of_flag_clear b⟩

/-! ## The operations of the Edge Source -/

theorem exec_of_afterOp {i : Instr} {s t : State} (h : afterOp i s = t) : exec i s = .next t :=
  h ▸ exec_eq i s

/-- Settles O12: the three cases of `FALL`. -/
theorem fallRecordsAndResyncs : Obligations.FallRecordsAndResyncs := by
  unfold Obligations.FallRecordsAndResyncs
  refine ⟨fun τ => decode_encode (.fall τ), fun s τ => ⟨fun idle => ?_, fun armed short => ?_,
    fun armed long => ?_⟩⟩
  · exact exec_of_afterOp (afterOp_fall_idle τ idle)
  · exact exec_of_afterOp (afterOp_fall_short armed short)
  · exact exec_of_afterOp (afterOp_fall_long armed long)

/-- Settles O13: the cases of `RISE`, of which two ignore it. -/
theorem riseDecodesOneBit : Obligations.RiseDecodesOneBit := by
  unfold Obligations.RiseDecodesOneBit
  refine ⟨fun τ => decode_encode (.rise τ), fun s τ => ⟨fun idle => ?_, fun _ past => ?_,
    fun armed before => ?_, fun armed last sum => ?_, fun armed last sum => ?_⟩⟩
  · exact exec_of_afterOp (afterOp_rise_ignored τ (.inl idle))
  · exact exec_of_afterOp (afterOp_rise_ignored τ (.inr past))
  · exact exec_of_afterOp (afterOp_rise_before armed before)
  · exact exec_of_afterOp (afterOp_rise_valid armed last sum)
  · exact exec_of_afterOp (afterOp_rise_invalid armed last sum)

/-- Settles O14: the two cases of `WDT`. -/
theorem wdtTimesOutACycle : Obligations.WdtTimesOutACycle := by
  unfold Obligations.WdtTimesOutACycle
  refine ⟨fun τ => decode_encode (.wdt τ), fun s τ => ⟨fun armed => ?_, fun idle => ?_⟩⟩
  · exact exec_of_afterOp (afterOp_wdt_open τ armed)
  · exact exec_of_afterOp (afterOp_wdt_idle τ idle)

theorem afterOp_fall_armed {s : State} (τ : Tick) (armed : s.armed = true) :
    afterOp (.fall τ) s = if 250000 < elapsed s.tref τ
      then { s with bit := -2, hum := 0, tmp := 0, cs := 0, tref := τ } else { s with tref := τ } := by
  split
  next long => exact afterOp_fall_long armed long
  next short => exact afterOp_fall_short armed (Nat.not_lt.1 short)

theorem afterOp_arm_open {s : State} (τ : Tick) (armed : s.armed = true) :
    afterOp (.arm τ) s = { s with
      bit := -2, hum := 0, tmp := 0, cs := 0, tref := τ, status := 0
      emitted := s.emitted ++ [.out ⟨.incomplete, 0, 0, τ⟩, .wd 200] } := by
  simp [afterOp_arm, armed]

/-- Settles O18: only the meaning of `RISE` looks at the bit index; the others do what they do while any
cycle is in progress. -/
theorem unreachableStatesAreDefined : Obligations.UnreachableStatesAreDefined := by
  unfold Obligations.UnreachableStatesAreDefined
  intro s τ armed past
  refine ⟨?rise, ?fall, ?wdt, ?cancel, ?arm⟩
  case rise => exact exec_of_afterOp (afterOp_rise_ignored τ (.inr past))
  case fall => exact exec_of_afterOp (afterOp_fall_armed τ armed)
  case wdt => exact exec_of_afterOp (afterOp_wdt_open τ armed)
  case cancel => exact exec_of_afterOp (afterOp_cancel_open τ armed)
  case arm => exact exec_of_afterOp (afterOp_arm_open τ armed)

/-! ## Edges that are no pulses -/

/-- A `FALL` taken while armed: the cycle goes on, and the next width or gap is measured from its tick. -/
theorem EventStep.fall_armed {s t : State} {τ : Tick} (h : EventStep s (.fall τ) t)
    (armed : s.armed = true) : t.armed = true ∧ t.tref = τ ∧
      t.index = if 250000 < elapsed s.tref τ then -2 else s.index := by
  cases h.effect with
  | fallIgnored _ _ idle => simp [idle] at armed
  | fallRecorded _ _ _ short => exact ⟨armed, rfl, (if_neg (Nat.not_lt.2 short)).symm⟩
  | resync _ _ _ long => exact ⟨armed, rfl, (if_pos long).symm⟩

/-- A `RISE` taken while armed before the last position: the cycle goes on, and the next width or gap is
measured from the same tick. -/
theorem EventStep.rise_before {s t : State} {τ : Tick} (h : EventStep s (.rise τ) t)
    (armed : s.armed = true) (before : s.index ≤ 38) :
    (t.armed = true ∧ t.tref = s.tref) ∧ t.index = s.index + 1 ∧
      t.hum = humAfter s (elapsed s.tref τ) ∧ t.tmp = tmpAfter s (elapsed s.tref τ) ∧
      t.cs = csAfter s (elapsed s.tref τ) := by
  cases h.effect with
  | riseIgnored _ _ ignored => exact absurd ⟨armed, by omega⟩ ignored
  | counted => exact ⟨⟨armed, rfl⟩, index_ofInt_succ before, rfl, rfl, rfl⟩
  | reading _ _ _ last | mismatch _ _ _ last => omega

/-- `ARM`: a cycle is in progress, and the next width or gap is measured from its tick. -/
theorem EventStep.arm_fresh {s t : State} {τ : Tick} (h : EventStep s (.arm τ) t) :
    t.armed = true ∧ t.tref = τ ∧ t.index = -2 ∧ t.cs = 0 := by
  cases h.effect with
  | restarted | started => exact ⟨rfl, rfl, rfl, rfl⟩

/-- Outside the checksum window a pulse can only set the sentinel. -/
theorem csAfter_of_index_lt {s : State} (d : Nat) (h : s.index < 32) :
    csAfter s d = if 200 ≤ d then 256 else s.cs := by
  rw [csAfter, if_neg (by omega), csMarked]
  split
  · rfl
  · exact (BitVec.ofNat_toNat 9 s.cs).trans (BitVec.setWidth_eq s.cs)

/-- Settles O47: the tick from which the second edge measures is the first one's in (a) and (c), and the
same for both in (b). -/
theorem edgesNeedNotAlternate : Obligations.EdgesNeedNotAlternate := by
  unfold Obligations.EdgesNeedNotAlternate
  intro s t u σ τ
  refine ⟨fun first second armed => ?falls, fun first second armed before => ?rises,
    fun first second => ?armRise⟩
  case falls =>
    obtain ⟨armed, tref, -⟩ := first.fall_armed armed
    obtain ⟨-, -, index⟩ := second.fall_armed armed
    rw [index, tref]
  case rises =>
    obtain ⟨⟨armed, tref⟩, index, -⟩ := first.rise_before armed (by omega)
    obtain ⟨-, next, decoded⟩ := second.rise_before armed (by omega)
    exact ⟨by omega, tref ▸ decoded⟩
  case armRise =>
    obtain ⟨armed, tref, index, cs⟩ := first.arm_fresh
    obtain ⟨-, next, -, -, mark⟩ := second.rise_before armed (by omega)
    rw [csAfter_of_index_lt _ (by omega), tref, cs] at mark
    exact ⟨by omega, mark⟩

/-! ## Edges while no cycle is in progress -/

theorem afterOp_edge_idle {i : Instr} {s : State} (idle : s.armed = false) (edge : isEdge i = true) :
    afterOp i s = s := by
  cases i with
  | fall τ => exact afterOp_fall_idle τ idle
  | rise τ => exact afterOp_rise_ignored τ (.inl idle)
  | wdt τ | arm τ | cancel τ | rsv5 τ | rsv6 τ | rsv7 τ => cases edge

/-- The first operation of a sequence finds the outputs of the step before it gone. -/
theorem runOps_clearEmitted {ops : List Instr} (h : ops ≠ []) (s : State) :
    runOps ops { s with emitted := [] } = runOps ops s := by
  cases ops with
  | nil => exact absurd rfl h
  | cons i rest => rfl

/-- Edges that an idle block ignores can be left out of a trace that goes on after them. -/
theorem runOps_edges_idle {edges rest : List Instr} {s : State} (idle : s.armed = false)
    (edge : ∀ i ∈ edges, isEdge i = true) (h : rest ≠ []) :
    runOps (edges ++ rest) s = runOps rest s := by
  induction edges with
  | nil => rfl
  | cons i edges ih =>
    obtain ⟨first, others⟩ := List.forall_mem_cons.1 edge
    have ignored : afterOp i { s with emitted := [] } = { s with emitted := [] } :=
      afterOp_edge_idle idle first
    calc runOps (i :: (edges ++ rest)) s
        = runOps (edges ++ rest) { s with emitted := [] } := by simp [runOps, ignored]
      _ = runOps (edges ++ rest) s := runOps_clearEmitted (by simp [h]) s
      _ = runOps rest s := ih others

/-- Settles O56, for the rest of the trace that is the `ARM`. -/
theorem edgesBeforeArmLeaveNoTrace : Obligations.EdgesBeforeArmLeaveNoTrace := by
  unfold Obligations.EdgesBeforeArmLeaveNoTrace
  intro edges a s idle edge
  rw [runTrace_ops, runTrace_ops, runOps_edges_idle idle edge (by simp)]

end Sys2Proof.Machine
end

section
/-! PROOFS. The checksum validator (spec/41_checksum_validator.md): the verdict on a frame. -/

namespace Sys2Proof.Machine

/-- Settles O23: the two verdicts; each example is one of them, by its sum. -/
theorem validatorComparesTheSum : Obligations.ValidatorComparesTheSum := by
  unfold Obligations.ValidatorComparesTheSum
  refine ⟨fun h t c => ⟨validate_valid, validate_invalid⟩, ?equal, ?offByOne, ?zeros, ?carry,
    ?sentinel⟩
  case equal | zeros | carry => exact validate_valid (by decide)
  case offByOne | sentinel => exact validate_invalid (by decide)

end Sys2Proof.Machine
end

section
/-! PROOFS. The host's operations (spec/42_trigger_and_control.md): `ARM`, `CANCEL` and the reserved codes,
and what `ARM` forgets. -/

namespace Sys2Proof.Machine

/-! ## What ARM forgets -/

/-- Whether or not a cycle was in progress, `ARM` commands the watchdog window of 200 ms, and nothing
else: the `INCOMPLETE` of R143 goes to the outcome port. -/
theorem wdCommands_afterOp_arm (s : State) (τ : Tick) :
    wdCommands (afterOp (.arm τ) s).emitted = wdCommands s.emitted ++ [200] := by
  rw [afterOp_arm]
  cases s.armed <;> simp [wdCommands_append, wdCommands]

/-- Every level output after an `ARM` is a constant or a copy of the latch. -/
theorem levels_afterOp_arm {s u : State} (τ : Tick) (latch : SameLatch s u) :
    (afterOp (.arm τ) s).levels = (afterOp (.arm τ) u).levels := by
  obtain ⟨resValid, resHum, resTmp, resTime⟩ := latch
  rw [afterOp_arm, afterOp_arm]
  simp only [State.levels, resValid, resHum, resTmp, resTime]

/-- The FrameState after an `ARM` is fresh, whatever the state before. -/
theorem sameFrame_afterOp_arm (s u : State) (τ : Tick) :
    SameFrame (afterOp (.arm τ) s) (afterOp (.arm τ) u) := by
  rw [afterOp_arm, afterOp_arm]
  exact ⟨rfl, rfl, rfl, rfl, rfl⟩

/-- Settles O39: the level outputs, the FrameState and the watchdog command, one lemma each. -/
theorem armForgetsTheCycleBefore : Obligations.ArmForgetsTheCycleBefore := by
  unfold Obligations.ArmForgetsTheCycleBefore
  intro s u τ latch
  exact ⟨_, _, exec_eq _ s, exec_eq _ u, levels_afterOp_arm τ latch, sameFrame_afterOp_arm s u τ,
    wdCommands_afterOp_arm s τ, wdCommands_afterOp_arm u τ⟩

/-! ## The operations, case by case -/

/-- Settles O15: the one equation of `ARM`, read with no cycle and with a cycle in progress. -/
theorem armStartsAFreshCycle : Obligations.ArmStartsAFreshCycle := by
  unfold Obligations.ArmStartsAFreshCycle
  refine ⟨fun τ => decode_encode (.arm τ), fun s τ => ⟨fun idle => ?_, fun armed => ?_⟩⟩
  · exact exec_of_afterOp (by simp [afterOp_arm, idle])
  · exact exec_of_afterOp (by simp [afterOp_arm, armed])

/-- Settles O16: the two cases of `CANCEL`. -/
theorem cancelClosesACycle : Obligations.CancelClosesACycle := by
  unfold Obligations.CancelClosesACycle
  refine ⟨fun τ => decode_encode (.cancel τ), fun s τ => ⟨fun armed => ?_, fun idle => ?_⟩⟩
  · exact exec_of_afterOp (afterOp_cancel_open τ armed)
  · exact exec_of_afterOp (afterOp_cancel_idle τ idle)

/-- Settles O17: the three words are the encodings of the reserved operations, and these leave the state
as it is. -/
theorem reservedCodesDoNothing : Obligations.ReservedCodesDoNothing := by
  unfold Obligations.ReservedCodesDoNothing
  intro s τ
  exact ⟨decode_encode (.rsv5 τ), decode_encode (.rsv6 τ), decode_encode (.rsv7 τ),
    exec_eq (.rsv5 τ) s, exec_eq (.rsv6 τ) s, exec_eq (.rsv7 τ) s⟩

end Sys2Proof.Machine
end

section
/-! PROOFS. The laws over traces (spec/44_laws.md): the last good reading, frames too short for one, and
frame traces. -/

namespace Sys2Proof.Machine

/-! ## The last good reading -/

/-- There is a `READING` among the outputs. -/
def GivesReading (outs : List Output) : Prop := ∃ o, .out o ∈ outs ∧ o.kind = .reading

theorem not_givesReading {outs : List Output} :
    ¬ GivesReading outs ↔ ∀ o, .out o ∈ outs → o.kind ≠ .reading := by
  simp [GivesReading]

theorem givesReading_append {a b : List Output} :
    GivesReading (a ++ b) ↔ GivesReading a ∨ GivesReading b := by
  simp only [GivesReading, List.mem_append, or_and_right, exists_or]

/-- An operation that emits no `READING` leaves the latch as it was. -/
theorem afterOp_keepsLatch (i : Instr) (s : State)
    (failure : ¬ GivesReading (afterOp i { s with emitted := [] }).emitted) :
    SameLatch s (afterOp i { s with emitted := [] }) := by
  obtain ⟨latch, -⟩ := latchHoldsTheLastReading
  obtain ⟨-, kept⟩ := latch _ _ _ (eventStep_present i s)
  obtain ⟨resValid, resHum, resTmp, resTime⟩ := kept (not_givesReading.1 failure)
  exact ⟨resValid, resHum, resTmp, resTime⟩

theorem runOps_keepsLatch {ops : List Instr} {s t : State} {outs : List Output}
    (run : runOps ops s = (outs, t)) (failure : ¬ GivesReading outs) : SameLatch s t := by
  induction ops generalizing s outs with
  | nil =>
    obtain ⟨-, rfl⟩ := Prod.mk.inj run
    exact .refl s
  | cons i rest ih =>
    obtain ⟨rfl, last⟩ := Prod.mk.inj run
    rw [givesReading_append, not_or] at failure
    obtain ⟨first, later⟩ := failure
    exact (afterOp_keepsLatch i s first).trans (ih (Prod.ext rfl last) later)

/-- The trace of `runTrace` is the fold `runOps`. -/
theorem runTrace_ops_iff {ops : List Instr} {s : State} {r : List Output × State} :
    runTrace (opTrace ops) s = some r ↔ runOps ops s = r := by
  rw [runTrace_ops, Option.some_inj]

/-- Settles O54: `runOps_keepsLatch`, by induction over the operations. -/
theorem failuresKeepTheLastReading : Obligations.FailuresKeepTheLastReading := by
  unfold Obligations.FailuresKeepTheLastReading
  intro ops s t outs h none
  exact runOps_keepsLatch (runTrace_ops_iff.1 h) (not_givesReading.2 none)

/-! ## Short frames -/

/-- Of all effects only that of a `RISE` at the last position emits a `READING`. -/
theorem Effect.reading_source {s t : State} {i : Instr} {o : OutcomeWord} (e : Effect s i t)
    (ho : .out o ∈ t.emitted) (kind : o.kind = .reading) :
    isRise i = true ∧ s.armed = true ∧ s.index = 39 := by
  cases e with
  | reading _ _ armed last => exact ⟨rfl, armed, last⟩
  | mismatch | timeout | cancelled | restarted =>
    simp only [List.mem_cons, Output.out.injEq, reduceCtorEq, List.not_mem_nil, false_or,
      or_false] at ho
    subst ho
    cases kind
  | fallIgnored | fallRecorded | resync | riseIgnored | counted | wdtIdle | cancelIdle | started
  | rsv5 | rsv6 | rsv7 => simp at ho

/-- The operations have too few `RISE`s to complete the cycle in progress, if there is one. -/
def OutOfReach (s : State) (ops : List Instr) : Prop :=
  s.armed = true → s.index + (ops.filter isRise).length < 40

theorem OutOfReach.of_rise {s : State} {i : Instr} {ops : List Instr} (h : OutOfReach s (i :: ops))
    (rise : isRise i = true) (armed : s.armed = true) :
    s.index + 1 + (ops.filter isRise).length < 40 := by
  have far := h armed
  rw [List.filter_cons_of_pos rise, List.length_cons] at far
  omega

/-- A `RISE` brings the last position nearer by one, a fresh cycle or frame is 42 away, and no other
operation moves the bit index. -/
theorem Effect.outOfReach {s t : State} {i : Instr} {ops : List Instr} (e : Effect s i t)
    (few : (ops.filter isRise).length < 42) (h : OutOfReach s (i :: ops)) : OutOfReach t ops := by
  intro armed
  cases e with
  | resync | restarted | started =>
    show (-2 : Int) + _ < 40
    omega
  | counted _ _ _ before =>
    show (BitVec.ofInt 7 (s.index + 1)).toInt + _ < 40
    rw [index_ofInt_succ before]
    exact h.of_rise rfl armed
  | riseIgnored =>
    have far := h.of_rise rfl armed
    show s.index + _ < 40
    omega
  | reading | mismatch | timeout | cancelled => cases armed
  | fallIgnored | fallRecorded | wdtIdle | cancelIdle | rsv5 | rsv6 | rsv7 => exact h armed

theorem runOps_noReading {ops : List Instr} {s : State} (few : (ops.filter isRise).length < 42)
    (h : OutOfReach s ops) : ∀ o, .out o ∈ (runOps ops s).1 → o.kind ≠ .reading := by
  induction ops generalizing s with
  | nil => nofun
  | cons i rest ih =>
    intro o ho kind
    have e := (eventStep_present i s).effect
    have fewer : (rest.filter isRise).length ≤ ((i :: rest).filter isRise).length :=
      ((List.sublist_cons_self i rest).filter isRise).length_le
    rcases List.mem_append.1 ho with first | later
    · obtain ⟨rise, armed, last⟩ := e.reading_source first kind
      have far := h.of_rise rise armed
      have last : s.index = 39 := last
      omega
    · exact ih (by omega) (e.outOfReach (by omega) h) o later kind

/-- Settles O44: `Effect.reading_source`, and for traces `runOps_noReading`. -/
theorem shortFrameNeverGivesAReading : Obligations.ShortFrameNeverGivesAReading := by
  unfold Obligations.ShortFrameNeverGivesAReading
  refine ⟨fun s i t o h ho kind => h.effect.reading_source ho kind, fun ops s t outs start few h => ?_⟩
  have run : runOps ops s = (outs, t) := runTrace_ops_iff.1 h
  have silent := runOps_noReading (s := s) few fun armed => by rw [start armed]; omega
  rwa [run] at silent

/-! ## Edges that keep a cycle open -/

theorem elapsed_add (a : Tick) {n : Nat} (h : n < 2 ^ 32) : elapsed a (a + BitVec.ofNat 32 n) = n := by
  obtain ⟨-, -, -, -, later⟩ := tickDifferenceWraps
  rw [← tickDelta_toNat, later a n h]

/-- A round of R240: the `RISE` counts, and the gap to the `FALL` is long enough to resynchronise. -/
theorem runOps_stalledRound {s : State} (armed : s.armed = true) (index : s.index = -2) :
    runOps [.rise (s.tref + 150000), .fall (s.tref + 300000)] s =
      ([], { s with
        bit := -2, hum := 0, tmp := 0, cs := 0, tref := s.tref + 300000, emitted := [] }) := by
  have counted := afterOp_rise_before (s := { s with emitted := [] }) (τ := s.tref + 150000) armed
    (show s.index ≤ 38 by omega)
  have long : 250000 < elapsed s.tref (s.tref + 300000) := by
    rw [show s.tref + 300000 = s.tref + BitVec.ofNat 32 300000 from rfl, elapsed_add _ (by omega)]
    omega
  simp only [runOps, counted]
  rw [afterOp_fall_long (by exact armed) (by exact long)]
  rfl

theorem runOps_stalledEdges (n : Nat) {s : State} (armed : s.armed = true) (index : s.index = -2) :
    ∃ t, runOps (stalledEdges s.tref n) s = ([], t) ∧ t.armed = true ∧ t.index = -2 := by
  induction n generalizing s with
  | zero => exact ⟨s, rfl, armed, index⟩
  | succ n ih =>
    obtain ⟨t, rest, stillOpen, back⟩ := ih (s := { s with
      bit := -2, hum := 0, tmp := 0, cs := 0, tref := s.tref + 300000, emitted := [] }) armed rfl
    refine ⟨t, ?_, stillOpen, back⟩
    calc runOps (stalledEdges s.tref (n + 1)) s
        = runOps ([.rise (s.tref + 150000), .fall (s.tref + 300000)] ++
            stalledEdges (s.tref + 300000) n) s := rfl
      _ = ([], t) := by rw [runOps_append, runOps_stalledRound armed index, rest, List.append_nil]

/-- Settles O57: `runOps_stalledEdges`, by induction over the rounds. -/
theorem edgesAloneNeedNotEndACycle : Obligations.EdgesAloneNeedNotEndACycle := by
  unfold Obligations.EdgesAloneNeedNotEndACycle
  intro n s armed index
  rw [runTrace_ops]
  simpa using runOps_stalledEdges n armed index

/-! ## Frame traces -/

/-- The state in a frame trace for `f` after `n` pulses, the last `FALL` (or the `ARM`) at `t`: the first
two pulses are the preamble, and each accumulator holds the bits of its byte that came so far. -/
def State.collected (s : State) (f : Frame) (n : Nat) (t : Tick) : State :=
  { s with
    armed := true
    bit := BitVec.ofInt 7 (n - 2)
    hum := BitVec.ofNat 8 (topBits f.hum (n - 2))
    tmp := BitVec.ofNat 8 (topBits f.tmp (n - 18))
    cs := BitVec.ofNat 9 (topBits f.checksum (n - 34))
    tref := t
    status := 0
    emitted := [] }

theorem index_collected (s : State) (f : Frame) (t : Tick) {n : Nat} (h : n ≤ 42) :
    (s.collected f n t).index = n - 2 := by
  show (BitVec.ofInt 7 ((n : Int) - 2)).toInt = n - 2
  revert n
  decide

/-- `ARM` begins a frame: no pulse yet, and every accumulator empty. -/
theorem afterOp_arm_collected (s : State) (f : Frame) (a : Tick) :
    { afterOp (.arm a) s with emitted := [] } = s.collected f 0 a := by
  simp [afterOp_arm, State.collected, topBits_zero]

/-- The widths that R230 (a), (b) and (c) allow the pulse that follows `n` others. -/
def FitsFrame (f : Frame) (n d : Nat) : Prop :=
  d < 200 ∧ (2 ≤ n → decide (50 ≤ d) = f.bitAt (n - 2))

/-- A pulse brings the next bit to the byte that stands at position `k` of the frame, if the pulse belongs
to that byte. -/
theorem topBits_next {f : Frame} {v : Byte} {k n d : Nat}
    (byte : ∀ j < 8, f.bitAt (k + j) = v.getLsbD (7 - j)) (fits : FitsFrame f n d) :
    topBits v (n + 1 - (k + 2)) = if k + 2 ≤ n ∧ n ≤ k + 9
      then 2 * topBits v (n - (k + 2)) + pulseValue d else topBits v (n - (k + 2)) := by
  split
  next window =>
    obtain ⟨-, bit⟩ := fits
    have place : n - 2 = k + (n - (k + 2)) := by omega
    rw [pulseValue_eq, bit (by omega), place, byte _ (by omega), topBits_succ v _ (by omega)]
    congr 1
    omega
  next outside =>
    rcases Nat.lt_or_ge n (k + 2) with before | after
    · congr 1
      omega
    · rw [topBits_full v _ (by omega), topBits_full v _ (by omega)]

section
variable {s : State} {f : Frame} {n d : Nat} {t : Tick} (hn : n < 42) (fits : FitsFrame f n d)
include hn fits

theorem humAfter_collected : humAfter (s.collected f n t) d = (s.collected f (n + 1) t).hum := by
  have next := topBits_next (k := 0) (v := f.hum) (by simpa using bitAt_hum f) fits
  have window : (0 ≤ (n : Int) - 2 ∧ (n : Int) - 2 ≤ 7) ↔ (0 + 2 ≤ n ∧ n ≤ 0 + 9) := by omega
  simp only [humAfter, index_collected s f t hn.le, window]
  simp only [State.collected, BitVec.toNat_ofNat, Nat.mod_eq_of_lt (topBits_lt f.hum _)]
  rw [next, ← apply_ite]

theorem tmpAfter_collected : tmpAfter (s.collected f n t) d = (s.collected f (n + 1) t).tmp := by
  have next := topBits_next (k := 16) (bitAt_tmp f) fits
  have window : (16 ≤ (n : Int) - 2 ∧ (n : Int) - 2 ≤ 23) ↔ (16 + 2 ≤ n ∧ n ≤ 16 + 9) := by omega
  simp only [tmpAfter, index_collected s f t hn.le, window]
  simp only [State.collected, BitVec.toNat_ofNat, Nat.mod_eq_of_lt (topBits_lt f.tmp _)]
  rw [next, apply_ite (BitVec.ofNat 8)]

theorem csAfter_collected : csAfter (s.collected f n t) d = (s.collected f (n + 1) t).cs := by
  have next := topBits_next (k := 32) (bitAt_cs f) fits
  have held := topBits_lt f.checksum (n - (32 + 2))
  have heldNext := topBits_lt f.checksum (n + 1 - (32 + 2))
  have unmarked : csMarked (s.collected f n t) d = topBits f.checksum (n - (32 + 2)) := by
    obtain ⟨noSync, -⟩ := fits
    rw [csMarked, if_neg (by omega)]
    exact (BitVec.toNat_ofNat _ 9).trans (Nat.mod_eq_of_lt (held.trans (by decide)))
  rw [csAfter, index_collected s f t hn.le, unmarked]
  show _ = BitVec.ofNat 9 (topBits f.checksum (n + 1 - (32 + 2)))
  split
  next window =>
    rw [if_pos (by omega)] at next
    congr 1
    omega
  next outside => rw [next, if_neg (by omega)]

end

section
variable {s : State} {f : Frame} {n : Nat} {t τ : Tick}

/-- A `FALL` in a frame trace: the gap is short, or there is nothing yet to throw away. -/
theorem afterOp_fall_collected (gap : n = 0 ∨ elapsed t τ ≤ 250000) :
    afterOp (.fall τ) (s.collected f n t) = s.collected f n τ := by
  rcases Nat.lt_or_ge 250000 (elapsed t τ) with long | short
  · obtain rfl : n = 0 := gap.resolve_right (Nat.not_le.2 long)
    rw [afterOp_fall_long rfl (by exact long)]
    simp [State.collected, topBits_zero]
  · exact afterOp_fall_short rfl short

/-- A `RISE` before the last one of a frame trace. -/
theorem afterOp_rise_collected (before : n < 41) (fits : FitsFrame f n (elapsed t τ)) :
    afterOp (.rise τ) (s.collected f n t) = s.collected f (n + 1) t := by
  have hn : n < 42 := by omega
  have index := index_collected s f t hn.le
  have next : (s.collected f n t).index + 1 = ((n + 1 : Nat) : Int) - 2 := by omega
  have fits : FitsFrame f n (elapsed (s.collected f n t).tref τ) := fits
  rw [afterOp_rise_before rfl (by omega), next, humAfter_collected hn fits,
    tmpAfter_collected hn fits, csAfter_collected hn fits]
  rfl

/-- An operation that emits nothing adds nothing to the outputs of a trace. -/
theorem runOps_cons_silent {i : Instr} {s t : State} (h : afterOp i { s with emitted := [] } = t)
    (silent : t.emitted = []) (rest : List Instr) : runOps (i :: rest) s = runOps rest t := by
  simp [runOps, h, silent]

/-- A pulse of a frame trace before the last one. -/
theorem runOps_pulse_collected {p : Pulse} (before : n < 41)
    (fits : FitsFrame f n (elapsed p.fall p.rise)) (gap : n = 0 ∨ elapsed t p.fall ≤ 250000)
    (rest : List Pulse) : runOps (pulseOps (p :: rest)) (s.collected f n t) =
      runOps (pulseOps rest) (s.collected f (n + 1) p.fall) :=
  calc runOps (pulseOps (p :: rest)) (s.collected f n t)
      = runOps (.rise p.rise :: pulseOps rest) (s.collected f n p.fall) :=
        runOps_cons_silent (afterOp_fall_collected gap) rfl _
    _ = runOps (pulseOps rest) (s.collected f (n + 1) p.fall) :=
        runOps_cons_silent (afterOp_rise_collected before fits) rfl _

/-- The last pulse of a frame trace: what its `RISE` does is left open. -/
theorem runOps_lastPulse {p : Pulse} (gap : elapsed t p.fall ≤ 250000) :
    runOps (pulseOps [p]) (s.collected f 41 t) =
      ((afterOp (.rise p.rise) (s.collected f 41 p.fall)).emitted,
        afterOp (.rise p.rise) (s.collected f 41 p.fall)) :=
  calc runOps (pulseOps [p]) (s.collected f 41 t)
      = runOps [.rise p.rise] (s.collected f 41 p.fall) :=
        runOps_cons_silent (afterOp_fall_collected (.inr gap)) rfl _
    _ = _ := by rw [runOps, runOps, List.append_nil]; rfl

end

/-- The pulses that end a well-formed frame trace for `f`, after `n` others and a last `FALL` at `t`. -/
structure FrameTail (f : Frame) (n : Nat) (t : Tick) (ps : List Pulse) : Prop where
  count : n + ps.length = 42
  fits : ∀ j p, ps[j]? = some p → FitsFrame f (n + j) (elapsed p.fall p.rise)
  gaps : gapsShort ps
  first : n = 0 ∨ ∀ p, ps.head? = some p → elapsed t p.fall ≤ 250000

theorem FrameTail.tail {f : Frame} {n : Nat} {t : Tick} {p q : Pulse} {rest : List Pulse}
    (h : FrameTail f n t (p :: q :: rest)) : FrameTail f (n + 1) p.fall (q :: rest) := by
  obtain ⟨count, fits, ⟨gap, gaps⟩, -⟩ := h
  rw [List.length_cons] at count
  refine ⟨by omega, fun j r hr => ?_, gaps, .inr fun r hr => ?_⟩
  · rw [show n + 1 + j = n + (j + 1) by omega]
    exact fits (j + 1) r hr
  · obtain rfl : q = r := Option.some.inj hr
    rwa [← tickDelta_toNat]

theorem WellFormedPulses.frameTail {f : Frame} {ps : List Pulse} (h : WellFormedPulses f ps) (a : Tick) :
    FrameTail f 0 a ps := by
  obtain ⟨count, belowSync, bits, gaps⟩ := h
  refine ⟨by rw [count], fun j p hp => ?_, gaps, .inl rfl⟩
  obtain ⟨hj, -⟩ := List.getElem?_eq_some_iff.1 hp
  rw [Nat.zero_add, ← tickDelta_toNat]
  refine ⟨belowSync p (List.mem_of_getElem? hp), fun two => ?_⟩
  have bit := bits (j - 2) (by omega) p (by rwa [Nat.sub_add_cancel two])
  exact Bool.eq_iff_iff.2 (decide_eq_true_iff.trans bit)

/-- The pulses of a frame trace lead to its last `RISE`. -/
theorem FrameTail.runOps_pulses {f : Frame} {n : Nat} {t : Tick} {ps : List Pulse}
    (h : FrameTail f n t ps) {p : Pulse} (last : ps.getLast? = some p) (s : State) :
    runOps (pulseOps ps) (s.collected f n t) =
      ((afterOp (.rise p.rise) (s.collected f 41 p.fall)).emitted,
        afterOp (.rise p.rise) (s.collected f 41 p.fall)) := by
  induction ps generalizing n t with
  | nil => cases last
  | cons q rest ih =>
    have count := h.count
    have fits := h.fits 0 q rfl
    have gap : n = 0 ∨ elapsed t q.fall ≤ 250000 := h.first.imp_right fun first => first q rfl
    cases rest with
    | nil =>
      obtain rfl : q = p := Option.some.inj last
      obtain rfl : n = 41 := by simpa using count
      exact runOps_lastPulse (gap.resolve_left (by decide))
    | cons r rest =>
      have before : n < 41 := by
        rw [List.length_cons, List.length_cons] at count
        omega
      rw [runOps_pulse_collected before fits gap]
      exact ih h.tail (by rwa [List.getLast?_cons_cons] at last)

/-- A frame trace, from any state: `ARM`, and what the last `RISE` finds when all the other bits have been
collected. -/
theorem runOps_frame {f : Frame} {ps : List Pulse} {p : Pulse} (h : WellFormedPulses f ps)
    (last : ps[41]? = some p) (s : State) (a : Tick) : runOps (frameOps a ps) s =
      ((if s.armed then [.out ⟨.incomplete, 0, 0, a⟩] else []) ++ .wd 200 ::
          (afterOp (.rise p.rise) (s.collected f 41 p.fall)).emitted,
        afterOp (.rise p.rise) (s.collected f 41 p.fall)) := by
  have last : ps.getLast? = some p := by rwa [List.getLast?_eq_getElem?, h.count]
  have pulses := (h.frameTail a).runOps_pulses last s
  have nonempty : pulseOps ps ≠ [] := by
    cases ps with
    | nil => cases last
    | cons p rest => nofun
  have armed : runOps (pulseOps ps) (afterOp (.arm a) { s with emitted := [] }) =
      runOps (pulseOps ps) (s.collected f 0 a) := by
    rw [← runOps_clearEmitted nonempty, afterOp_arm_collected]
    rfl
  simp only [frameOps, runOps, armed, pulses]
  simp [afterOp_arm]

/-! ## The verdict on a frame -/

theorem hum_collected_last (s : State) (f : Frame) (t : Tick) : (s.collected f 41 t).hum = f.hum := by
  simp [State.collected, topBits_full]

theorem tmp_collected_last (s : State) (f : Frame) (t : Tick) : (s.collected f 41 t).tmp = f.tmp := by
  simp [State.collected, topBits_full]

/-- The last bit of a frame completes the checksum byte. -/
theorem csAfter_collected_last (s : State) (t : Tick) {f : Frame} {d : Nat}
    (fits : FitsFrame f 41 d) : csAfter (s.collected f 41 t) d = f.checksum.setWidth 9 := by
  rw [csAfter_collected (by decide) fits]
  show BitVec.ofNat 9 (topBits f.checksum 8) = _
  rw [topBits_full _ _ (by decide)]
  exact BitVec.ofNat_toNat 9 f.checksum

/-- The validator's rule (R131) on a frame. -/
theorem sumMatches_collected_last (s : State) (t : Tick) {f : Frame} {d : Nat}
    (fits : FitsFrame f 41 d) : sumMatches (s.collected f 41 t) d ↔ f.checksum = f.hum + f.tmp := by
  rw [sumMatches, csAfter_collected_last _ _ fits, hum_collected_last, tmp_collected_last,
    ← BitVec.toNat_inj, BitVec.toNat_add, BitVec.toNat_setWidth]
  have := f.checksum.isLt
  omega

theorem WellFormedPulses.fits_last {f : Frame} {ps : List Pulse} {p : Pulse}
    (h : WellFormedPulses f ps) (last : ps[41]? = some p) : FitsFrame f 41 (elapsed p.fall p.rise) :=
  (h.frameTail 0).fits 41 p last

/-- Settles O40: the last `RISE` of the frame finds its sum. -/
theorem correctFrameGivesItsReading : Obligations.CorrectFrameGivesItsReading := by
  unfold Obligations.CorrectFrameGivesItsReading
  intro s f a ps p h last sum
  have fits : FitsFrame f 41 (elapsed (s.collected f 41 p.fall).tref p.rise) := h.fits_last last
  have valid := (sumMatches_collected_last s p.fall fits).2 sum
  rw [runTrace_ops, runOps_frame h last, afterOp_rise_valid rfl rfl valid,
    csAfter_collected_last _ _ fits, hum_collected_last, tmp_collected_last]
  simp only [State.collected, List.nil_append, topBits_full, Nat.reduceSub, Nat.reduceLeDiff,
    BitVec.ofNat_toNat, BitVec.setWidth_eq]

/-- Settles O41: the last `RISE` of the frame finds another sum. -/
theorem wrongChecksumGivesAMismatch : Obligations.WrongChecksumGivesAMismatch := by
  unfold Obligations.WrongChecksumGivesAMismatch
  intro s f a ps p h last sum
  have fits : FitsFrame f 41 (elapsed (s.collected f 41 p.fall).tref p.rise) := h.fits_last last
  have invalid := mt (sumMatches_collected_last s p.fall fits).1 sum
  rw [runTrace_ops, runOps_frame h last, afterOp_rise_invalid rfl rfl invalid]
  exact ⟨_, rfl, rfl, rfl, ⟨rfl, rfl, rfl, rfl⟩⟩

/-! ## One flipped bit -/

/-- The bits that a flip at position `i` changes in the byte at `start`: none exactly if the position is
outside that byte. -/
theorem flipMask_eq_zero_iff : ∀ i < 40, ∀ start ≤ 32,
    ((1#40 <<< (39 - i)).extractLsb' start 8 = 0 ↔ ¬ (start ≤ 39 - i ∧ 39 - i < start + 8)) := by
  decide

/-- A sum that holds breaks if exactly one of its three bytes changes. -/
theorem sum_broken_of_masks {hum tmp cs mh mt mc : Byte} (sum : cs = hum + tmp)
    (one : (mh ≠ 0 ∧ mt = 0 ∧ mc = 0) ∨ (mh = 0 ∧ mt ≠ 0 ∧ mc = 0) ∨ (mh = 0 ∧ mt = 0 ∧ mc ≠ 0)) :
    cs ^^^ mc ≠ (hum ^^^ mh) + (tmp ^^^ mt) := by
  subst sum
  intro holds
  obtain ⟨changed, rfl, rfl⟩ | ⟨rfl, changed, rfl⟩ | ⟨rfl, rfl, changed⟩ := one <;>
    simp only [xor_zero] at holds
  · exact changed (xor_left_eq_self_iff.1 (add_right_cancel holds).symm)
  · exact changed (xor_left_eq_self_iff.1 (add_left_cancel holds).symm)
  · exact changed (xor_left_eq_self_iff.1 holds)

/-- Settles O42: the flip is a mask on each byte, and `flipMask_eq_zero_iff` says which one it changes. -/
theorem oneFlippedBitBreaksTheSum : Obligations.OneFlippedBitBreaksTheSum := by
  unfold Obligations.OneFlippedBitBreaksTheSum
  intro f i hi sum
  have hum := flipMask_eq_zero_iff i hi 32 (by omega)
  have tmp := flipMask_eq_zero_iff i hi 16 (by omega)
  have cs := flipMask_eq_zero_iff i hi 0 (by omega)
  rw [Frame.flip, Frame.ofBits_xor]
  refine ⟨fun covered => sum_broken_of_masks sum ?_, fun fraction => ?_⟩
  · simp only [ne_eq, hum, tmp, cs]
    omega
  · rw [hum.2 (by omega), tmp.2 (by omega), cs.2 (by omega)]
    simpa only [xor_zero, and_true] using sum

end Sys2Proof.Machine
end

section
/-! PROOFS. Two runs of the same operations (spec/44_laws.md R234, R235), one of them later than the
other: the independence of cycles and the translation of time. -/

namespace Sys2Proof.Machine

/-! ## Two runs, one of them later -/

/-- `u` is `s` in all registers but the latch, with `tref` moved by `k` if `moved`. -/
structure Follows (k : Tick) (moved : Bool) (s u : State) : Prop where
  armed : u.armed = s.armed
  bit : u.bit = s.bit
  hum : u.hum = s.hum
  tmp : u.tmp = s.tmp
  cs : u.cs = s.cs
  tref : u.tref = if moved then s.tref + k else s.tref
  status : u.status = s.status

/-- The latch of `u` holds the reading of `s`, taken `k` later. -/
structure LatchFollows (k : Tick) (s u : State) : Prop where
  resValid : u.resValid = s.resValid
  resHum : u.resHum = s.resHum
  resTmp : u.resTmp = s.resTmp
  resTime : u.resTime = s.resTime + k

theorem givesReading_shift (k : Tick) (outs : List Output) :
    GivesReading (outs.map (Output.shift k)) ↔ GivesReading outs := by
  induction outs with
  | nil => rfl
  | cons a rest ih =>
    have first : GivesReading [a.shift k] ↔ GivesReading [a] := by
      cases a <;> simp [GivesReading, Output.shift]
    calc GivesReading ([a.shift k] ++ rest.map (Output.shift k))
        ↔ GivesReading [a] ∨ GivesReading rest := by rw [givesReading_append, first, ih]
      _ ↔ GivesReading ([a] ++ rest) := givesReading_append.symm

theorem LatchFollows.of_kept {k : Tick} {s u t v : State} (h : LatchFollows k s u)
    (first : SameLatch s t) (second : SameLatch u v) : LatchFollows k t v := by
  obtain ⟨h1, h2, h3, h4⟩ := h
  obtain ⟨a1, a2, a3, a4⟩ := first
  obtain ⟨b1, b2, b3, b4⟩ := second
  exact ⟨b1 ▸ a1 ▸ h1, b2 ▸ a2 ▸ h2, b3 ▸ a3 ▸ h3, b4 ▸ a4 ▸ h4⟩

/-- From `s` and `u` on, the second of two runs answers as the first, `k` later; a latch that followed
still does, and one that did not does so from a `READING` on. -/
structure AnswersLater (k : Tick) (moved : Bool) (s u : State) (r q : List Output × State) : Prop where
  outputs : q.1 = r.1.map (Output.shift k)
  follows : Follows k moved r.2 q.2
  latch : LatchFollows k s u ∨ GivesReading r.1 → LatchFollows k r.2 q.2

/-- The outputs and the end state of one operation. -/
def runOp (i : Instr) (s : State) : List Output × State :=
  ((afterOp i { s with emitted := [] }).emitted, afterOp i { s with emitted := [] })

/-- Without a `READING` the two latches stay as they are. -/
theorem answersLater_of_failure {k : Tick} {moved : Bool} {s u t v : State} {i j : Instr}
    (first : afterOp i { s with emitted := [] } = t) (second : afterOp j { u with emitted := [] } = v)
    (follows : Follows k moved t v) (outputs : v.emitted = t.emitted.map (Output.shift k))
    (failure : ¬ GivesReading t.emitted) : AnswersLater k moved s u (runOp i s) (runOp j u) := by
  subst first second
  refine ⟨outputs, follows, fun h => ?_⟩
  have noReading := mt (givesReading_shift k _).1 failure
  rw [← outputs] at noReading
  exact (h.resolve_right failure).of_kept (afterOp_keepsLatch i s failure)
    (afterOp_keepsLatch j u noReading)

/-- `ARM` sets every register but the latch, whatever the state before. -/
theorem follows_arm (k a : Tick) (s u : State) :
    Follows k true (runOp (.arm a) s).2 (runOp (.arm (a + k)) u).2 := by
  rw [runOp, runOp, afterOp_arm, afterOp_arm]
  exact ⟨rfl, rfl, rfl, rfl, rfl, rfl, rfl⟩

theorem answersLater_arm (k : Tick) {s u : State} (armed : u.armed = s.armed) (a : Tick) :
    AnswersLater k true s u (runOp (.arm a) s) (runOp (.arm (a + k)) u) := by
  refine answersLater_of_failure rfl rfl (follows_arm k a s u) ?_ ?_
  · simp only [afterOp_arm, armed]
    cases s.armed <;> rfl
  · rw [afterOp_arm]
    cases s.armed <;> simp [GivesReading]

theorem isArm_shiftOp (k : Tick) (i : Instr) : isArm (shiftOp k i) = isArm i := by cases i <;> rfl

theorem endsAnyCycle_shiftOp (k : Tick) (i : Instr) : endsAnyCycle (shiftOp k i) = endsAnyCycle i := by
  cases i <;> rfl

/-- While no cycle is in progress the registers stay as they are, moved or not. -/
theorem Follows.answers_idle {k : Tick} {moved : Bool} {s u : State} (h : Follows k moved s u)
    (idle : s.armed = false) {i : Instr} (hi : isArm i = false) :
    AnswersLater k moved s u (runOp i s) (runOp (shiftOp k i) u) := by
  obtain ⟨armed, bit, hum, tmp, cs, tref, status⟩ := h
  refine answersLater_of_failure (afterOp_idle_eq (by exact idle) hi)
    (afterOp_idle_eq (by exact armed.trans idle) ((isArm_shiftOp k i).trans hi))
    ⟨armed, bit, hum, tmp, cs, tref, status⟩ ?_ ?_
  · rw [endsAnyCycle_shiftOp]
    cases endsAnyCycle i <;> rfl
  · cases endsAnyCycle i <;> simp [GivesReading]

section
variable {k : Tick} {s u : State} (h : Follows k true s u)
include h

theorem Follows.elapsed_eq (τ : Tick) : elapsed u.tref (τ + k) = elapsed s.tref τ := by
  rw [h.tref, if_pos rfl, elapsed_add_right]

theorem Follows.index_eq : u.index = s.index := by
  rw [State.index, State.index, h.bit]

theorem Follows.humAfter_eq (τ : Tick) :
    humAfter u (elapsed u.tref (τ + k)) = humAfter s (elapsed s.tref τ) := by
  rw [h.elapsed_eq, humAfter, humAfter, h.index_eq, h.hum]

theorem Follows.tmpAfter_eq (τ : Tick) :
    tmpAfter u (elapsed u.tref (τ + k)) = tmpAfter s (elapsed s.tref τ) := by
  rw [h.elapsed_eq, tmpAfter, tmpAfter, h.index_eq, h.tmp]

theorem Follows.csAfter_eq (τ : Tick) :
    csAfter u (elapsed u.tref (τ + k)) = csAfter s (elapsed s.tref τ) := by
  rw [h.elapsed_eq, csAfter, csAfter, csMarked, csMarked, h.index_eq, h.cs]

theorem Follows.sumMatches_iff (τ : Tick) :
    sumMatches u (elapsed u.tref (τ + k)) ↔ sumMatches s (elapsed s.tref τ) := by
  rw [sumMatches, sumMatches, h.csAfter_eq, h.hum, h.tmp]

variable (busy : s.armed = true)
include busy

theorem Follows.answers_fall (τ : Tick) :
    AnswersLater k true s u (runOp (.fall τ) s) (runOp (.fall (τ + k)) u) := by
  have gap := h.elapsed_eq τ
  obtain ⟨armed, bit, hum, tmp, cs, -, status⟩ := h
  rcases Nat.lt_or_ge 250000 (elapsed s.tref τ) with long | short
  · exact answersLater_of_failure (afterOp_fall_long busy long)
      (afterOp_fall_long (armed.trans busy) (long.trans_eq gap.symm))
      ⟨armed, rfl, rfl, rfl, rfl, rfl, status⟩ rfl (by simp [GivesReading])
  · exact answersLater_of_failure (afterOp_fall_short busy short)
      (afterOp_fall_short (armed.trans busy) (gap.trans_le short))
      ⟨armed, bit, hum, tmp, cs, rfl, status⟩ rfl (by simp [GivesReading])

theorem Follows.answers_rise (τ : Tick) :
    AnswersLater k true s u (runOp (.rise τ) s) (runOp (.rise (τ + k)) u) := by
  have index := h.index_eq
  have armed := h.armed.trans busy
  have cs := h.csAfter_eq τ
  rcases Int.lt_trichotomy s.index 39 with before | last | past
  · have next : BitVec.ofInt 7 (u.index + 1) = BitVec.ofInt 7 (s.index + 1) := by rw [index]
    exact answersLater_of_failure (afterOp_rise_before busy (by show s.index ≤ 38; omega))
      (afterOp_rise_before armed (by show u.index ≤ 38; omega))
      ⟨h.armed, next, h.humAfter_eq τ, h.tmpAfter_eq τ, cs, h.tref, h.status⟩ rfl
      (by simp [GivesReading])
  · by_cases sum : sumMatches s (elapsed s.tref τ)
    · have first := afterOp_rise_valid (s := { s with emitted := [] }) busy last sum
      have second := afterOp_rise_valid (s := { u with emitted := [] }) armed (index.trans last)
        ((h.sumMatches_iff τ).2 sum)
      refine ⟨?outputs, ?follows, fun _ => ?latch⟩ <;> simp only [runOp, first, second]
      case outputs => simp [Output.shift, h.hum, h.tmp]
      case follows => exact ⟨rfl, rfl, h.hum, h.tmp, cs, h.tref, rfl⟩
      case latch => exact ⟨rfl, h.hum, h.tmp, rfl⟩
    · exact answersLater_of_failure (afterOp_rise_invalid busy last sum)
        (afterOp_rise_invalid armed (index.trans last) (mt (h.sumMatches_iff τ).1 sum))
        ⟨rfl, rfl, h.hum, h.tmp, cs, h.tref, rfl⟩ rfl (by simp [GivesReading])
  · obtain ⟨armed, bit, hum, tmp, cs, tref, status⟩ := h
    exact answersLater_of_failure (afterOp_rise_ignored τ (.inr (by show 40 ≤ s.index; omega)))
      (afterOp_rise_ignored (τ + k) (.inr (by show 40 ≤ u.index; omega)))
      ⟨armed, bit, hum, tmp, cs, tref, status⟩ rfl (by simp [GivesReading])

theorem Follows.answers_busy {i : Instr} (hi : isArm i = false) :
    AnswersLater k true s u (runOp i s) (runOp (shiftOp k i) u) := by
  cases i with
  | fall τ => exact h.answers_fall busy τ
  | rise τ => exact h.answers_rise busy τ
  | arm τ => cases hi
  | wdt τ =>
    obtain ⟨armed, bit, hum, tmp, cs, tref, -⟩ := h
    exact answersLater_of_failure (afterOp_wdt_open τ busy)
      (afterOp_wdt_open (τ + k) (armed.trans busy)) ⟨rfl, bit, hum, tmp, cs, tref, rfl⟩ rfl
      (by simp [GivesReading])
  | cancel τ =>
    obtain ⟨armed, bit, hum, tmp, cs, tref, -⟩ := h
    exact answersLater_of_failure (afterOp_cancel_open τ busy)
      (afterOp_cancel_open (τ + k) (armed.trans busy)) ⟨rfl, bit, hum, tmp, cs, tref, rfl⟩ rfl
      (by simp [GivesReading])
  | rsv5 τ | rsv6 τ | rsv7 τ =>
    obtain ⟨armed, bit, hum, tmp, cs, tref, status⟩ := h
    exact answersLater_of_failure rfl rfl ⟨armed, bit, hum, tmp, cs, tref, status⟩ rfl
      (by simp [GivesReading, afterOp])

end

/-- One operation on two states of which the second follows the first. -/
theorem Follows.answers {k : Tick} {moved : Bool} {s u : State} (h : Follows k moved s u)
    (ready : s.armed = true → moved = true) (i : Instr) :
    AnswersLater k (moved || isArm i) s u (runOp i s) (runOp (shiftOp k i) u) := by
  rcases Bool.eq_false_or_eq_true (isArm i) with hi | hi
  · obtain ⟨a, rfl⟩ := exists_arm_of_isArm hi
    rw [hi, Bool.or_true]
    exact answersLater_arm k h.armed a
  rw [hi, Bool.or_false]
  rcases Bool.eq_false_or_eq_true s.armed with busy | idle
  · obtain rfl := ready busy
    exact h.answers_busy busy hi
  · exact h.answers_idle idle hi

/-- A cycle can be in progress only if one was, or by an `ARM`. -/
theorem armed_afterOp_of_not_arm {i : Instr} {s : State} (hi : isArm i = false)
    (busy : (afterOp i { s with emitted := [] }).armed = true) : s.armed = true := by
  rcases Bool.eq_false_or_eq_true s.armed with armed | idle
  · exact armed
  · rw [afterOp_idle_eq (by exact idle) hi] at busy
    exact busy

theorem AnswersLater.append {k : Tick} {moved moved' : Bool} {s u : State}
    {r q r' q' : List Output × State} (h : AnswersLater k moved s u r q)
    (h' : AnswersLater k moved' r.2 q.2 r' q') :
    AnswersLater k moved' s u (r.1 ++ r'.1, r'.2) (q.1 ++ q'.1, q'.2) := by
  obtain ⟨outs, -, latch⟩ := h
  obtain ⟨outsLater, follows, latch'⟩ := h'
  refine ⟨by simp only [outs, outsLater, List.map_append], follows, fun reading => latch' ?_⟩
  rw [givesReading_append, ← or_assoc] at reading
  exact reading.imp_left latch

theorem Follows.refl (k : Tick) (s : State) : Follows k false s s :=
  ⟨rfl, rfl, rfl, rfl, rfl, rfl, rfl⟩

/-- A trace of operations and the same trace `k` later, from states of which the second follows the first;
until an `ARM` the reference tick need not be moved if no cycle is in progress. -/
theorem Follows.answers_ops {k : Tick} {moved : Bool} {s u : State} (h : Follows k moved s u)
    (ready : s.armed = true → moved = true) (ops : List Instr) :
    AnswersLater k (moved || ops.any isArm) s u (runOps ops s) (runOps (ops.map (shiftOp k)) u) := by
  induction ops generalizing moved s u with
  | nil =>
    rw [List.any_nil, Bool.or_false]
    exact ⟨rfl, h, fun c => c.resolve_right (by simp [GivesReading, runOps])⟩
  | cons i rest ih =>
    have first := h.answers ready i
    have stillReady : (runOp i s).2.armed = true → (moved || isArm i) = true := by
      intro busy
      cases hi : isArm i
      · simp [ready (armed_afterOp_of_not_arm hi busy)]
      · simp
    rw [List.any_cons, ← Bool.or_assoc]
    exact first.append (ih first.follows stillReady)

/-! ## Independence of cycles: the second run is not later -/

theorem shiftOp_zero : shiftOp 0 = id := by
  funext i
  cases i <;> simp [shiftOp]

theorem Output.shift_zero : Output.shift 0 = id := by
  funext o
  cases o <;> simp [Output.shift]

theorem latchFollows_zero_iff {s u : State} : LatchFollows 0 s u ↔ SameLatch u s := by
  refine ⟨fun ⟨h1, h2, h3, h4⟩ => ⟨h1, h2, h3, ?_⟩, fun ⟨h1, h2, h3, h4⟩ => ⟨h1, h2, h3, ?_⟩⟩ <;>
    simpa using h4

/-- What a trace that begins with `ARM` drives: `INCOMPLETE` first for a cycle in progress (R143). -/
theorem runOps_arm (a : Tick) (ops : List Instr) (s : State) :
    runOps (.arm a :: ops) s =
      ((if s.armed then [.out ⟨.incomplete, 0, 0, a⟩] else []) ++
        .wd 200 :: (runOps ops (runOp (.arm a) s).2).1, (runOps ops (runOp (.arm a) s).2).2) := by
  simp [runOps, runOp, afterOp_arm]

theorem sameLatch_arm (a : Tick) (s : State) : SameLatch s (runOp (.arm a) s).2 := by
  rw [runOp, afterOp_arm]
  exact ⟨rfl, rfl, rfl, rfl⟩

/-- After an `ARM` at the same tick, two runs of the same operations agree, but for the latch until the
next `READING`. -/
theorem answersLater_zero (s u : State) (a : Tick) (ops : List Instr) :
    AnswersLater 0 true (runOp (.arm a) s).2 (runOp (.arm a) u).2
      (runOps ops (runOp (.arm a) s).2) (runOps ops (runOp (.arm a) u).2) := by
  have start : Follows 0 true (runOp (.arm a) s).2 (runOp (shiftOp 0 (.arm a)) u).2 :=
    follows_arm 0 a s u
  have runs := start.answers_ops (fun _ => rfl) ops
  rwa [shiftOp_zero, List.map_id] at runs

/-- Settles O49: whatever the two states, `ARM` at the same tick starts `answersLater_zero`. -/
theorem cyclesAreIndependent : Obligations.CyclesAreIndependent := by
  unfold Obligations.CyclesAreIndependent
  intro s u a ops idle
  obtain ⟨outs, ⟨armed, bit, hum, tmp, cs, tref, status⟩, latch⟩ := answersLater_zero u s a ops
  rw [Output.shift_zero, List.map_id] at outs
  refine ⟨.wd 200 :: (runOps ops (runOp (.arm a) u).2).1, _, _, ?_,
    runTrace_ops_iff.2 (outs ▸ runOps_arm a ops s), armed, status,
    ⟨bit, hum, tmp, cs, tref.trans (BitVec.add_zero _)⟩, fun same => ?_⟩
  · rw [runTrace_ops, runOps_arm, idle]
    rfl
  · refine latchFollows_zero_iff.1 (latch (same.imp (fun same => ?_) fun ⟨o, ho, kind⟩ => ?_))
    · exact (latchFollows_zero_iff.2 same).of_kept (sameLatch_arm a u) (sameLatch_arm a s)
    · exact ⟨o, by simpa using ho, kind⟩

/-! ## Translation of time -/

theorem runOps_inputs (ops : List Instr) (s : State) : (runOps ops s).2.inputs = s.inputs :=
  runOps_keeps (P := fun t => t.inputs = s.inputs) (fun i _ h => (afterOp_inputs i _).trans h) ops s rfl

/-- A state that follows another and holds its data is known but for `resTime` and the outputs. -/
theorem Follows.state_eq {k : Tick} {moved : Bool} {t v : State} (h : Follows k moved t v)
    (inputs : v.inputs = t.inputs) (resValid : v.resValid = t.resValid) (resHum : v.resHum = t.resHum)
    (resTmp : v.resTmp = t.resTmp) : v = { t with
      tref := if moved then t.tref + k else t.tref
      resTime := v.resTime
      emitted := v.emitted } := by
  obtain ⟨armed, bit, hum, tmp, cs, tref, status⟩ := h
  rw [← armed, ← bit, ← hum, ← tmp, ← cs, ← tref, ← status, ← inputs, ← resValid, ← resHum, ← resTmp]

theorem givesReading_iff {outs : List Output} :
    GivesReading outs ↔ ∃ o ∈ outcomes outs, o.kind = .reading := by
  simp only [GivesReading, mem_outcomes]

/-- Two runs from the same state: a `READING` fills both latches, and without one both end with the latch
they began with. -/
theorem AnswersLater.latch_eq {k : Tick} {moved : Bool} {s t v : State} {ops opsLater : List Instr}
    {outs outsLater : List Output} (h : AnswersLater k moved s s (outs, t) (outsLater, v))
    (run : runOps ops s = (outs, t)) (runLater : runOps opsLater s = (outsLater, v)) :
    v.resValid = t.resValid ∧ v.resHum = t.resHum ∧ v.resTmp = t.resTmp ∧
      v.resTime = if ∃ o ∈ outcomes outs, o.kind = .reading then t.resTime + k else t.resTime := by
  obtain ⟨shifted, -, latch⟩ := h
  replace shifted : outsLater = outs.map (Output.shift k) := shifted
  split
  next reading =>
    obtain ⟨resValid, resHum, resTmp, resTime⟩ := latch (.inr (givesReading_iff.2 reading))
    exact ⟨resValid, resHum, resTmp, resTime⟩
  next none =>
    have failure := mt givesReading_iff.1 none
    have noReading : ¬ GivesReading outsLater := by rwa [shifted, givesReading_shift]
    obtain ⟨a1, a2, a3, a4⟩ := runOps_keepsLatch run failure
    obtain ⟨b1, b2, b3, b4⟩ := runOps_keepsLatch runLater noReading
    exact ⟨b1.symm.trans a1, b2.symm.trans a2, b3.symm.trans a3, b4.symm.trans a4⟩

/-- The end of the second of two runs from the same state. -/
theorem AnswersLater.end_eq {k : Tick} {moved : Bool} {s t : State} {ops opsLater : List Instr}
    {outs : List Output} (h : AnswersLater k moved s s (outs, t) (runOps opsLater s))
    (run : runOps ops s = (outs, t)) : runOps opsLater s = (outs.map (Output.shift k),
      { t with
        tref := if moved then t.tref + k else t.tref
        resTime := if ∃ o ∈ outcomes outs, o.kind = .reading then t.resTime + k else t.resTime
        emitted := (runOps opsLater s).2.emitted }) := by
  obtain ⟨resValid, resHum, resTmp, resTime⟩ := h.latch_eq run rfl
  have inputs : (runOps opsLater s).2.inputs = t.inputs := by
    rw [runOps_inputs, ← runOps_inputs ops s, run]
  rw [← resTime]
  exact Prod.ext h.outputs (h.follows.state_eq inputs resValid resHum resTmp)

/-- A trace that begins with `ARM`, from whatever state, and the same trace `k` later from that state. -/
theorem answersLater_armTrace (k : Tick) (s : State) (a : Tick) (ops : List Instr) :
    AnswersLater k true s s (runOps (.arm a :: ops) s)
      (runOps ((Instr.arm a :: ops).map (shiftOp k)) s) :=
  have first := answersLater_arm k (s := s) rfl a
  first.append (first.follows.answers_ops (fun _ => rfl) ops)

/-- After a `RESET` a trace of operations runs as from the reset state. -/
theorem runTrace_reset (ops : List Instr) (s : State) : runTrace (.reset :: opTrace ops) s =
    some (runOps ops (s.takeReset s.inputs)) := by
  rw [runTrace_eq, runInputs, runInputs_ops]
  rfl

/-- Settles O51: the translated trace answers `k` later, from the `ARM` or the reset state on. -/
theorem timeCanBeTranslated : Obligations.TimeCanBeTranslated := by
  unfold Obligations.TimeCanBeTranslated
  refine ⟨fun k a ops s t outs h => ?_, fun k ops s t outs h => ?_⟩
  · have run : runOps (.arm a :: ops) s = (outs, t) := runTrace_ops_iff.1 h
    have whole := answersLater_armTrace k s a ops
    rw [run] at whole
    have ends := whole.end_eq run
    rw [if_pos rfl] at ends
    exact ⟨_, runTrace_ops_iff.2 ends⟩
  · rw [runTrace_reset] at h
    have run := Option.some.inj h
    have whole := (Follows.refl k (s.takeReset s.inputs)).answers_ops nofun ops
    rw [run] at whole
    have ends := whole.end_eq run
    simp only [Bool.false_or, List.any_eq_true] at ends
    exact ⟨_, (runTrace_reset _ s).trans (congrArg some ends)⟩

end Sys2Proof.Machine
end

section
/-! PROOFS. Outcomes, which are the exceptions of this hardware (spec/60_exceptions.md): that a step never
stops, which step emits which outcome, and one outcome for every cycle. -/

namespace Sys2Proof.Machine

/-! ## A step never stops -/

/-- Settles O10: the three cases of what is presented. -/
theorem everyStepAnswersANextState : Obligations.EveryStepAnswersANextState := by
  unfold Obligations.EveryStepAnswersANextState
  intro s
  match hi : s.inputs with
  | [] => exact ⟨_, step_wait hi⟩
  | .reset :: rest => exact ⟨_, step_reset hi⟩
  | .event w :: rest => exact ⟨_, step_event hi⟩

/-! ## The outcomes of a step -/

/-- Whether the sum of a frame holds, as a Boolean, if the operation is a `RISE`. -/
theorem exists_sumOk (s : State) (i : Instr) :
    ∃ sumOk : Bool, ∀ τ, i = .rise τ → (sumOk = true ↔ sumMatches s (elapsed s.tref τ)) := by
  cases i with
  | rise τ =>
    classical
    exact ⟨decide (sumMatches s (elapsed s.tref τ)),
      fun _ same => Instr.rise.inj same ▸ decide_eq_true_iff⟩
  | fall | wdt | arm | cancel | rsv5 | rsv6 | rsv7 => exact ⟨true, nofun⟩

/-- Settles O32, effect by effect. -/
theorem outcomesOfEveryOperation : Obligations.OutcomesOfEveryOperation := by
  unfold Obligations.OutcomesOfEveryOperation
  refine ⟨fun s i t h => ?_, rfl, rfl, rfl, rfl⟩
  obtain ⟨sumOk, ok_iff⟩ := exists_sumOk s i
  refine ⟨sumOk, ok_iff, ?_⟩
  cases h.effect with
  | fallIgnored | fallRecorded | resync | rsv5 | rsv6 | rsv7 => rfl
  | riseIgnored _ _ ignored =>
    exact (if_neg fun ⟨armed, last⟩ => ignored ⟨armed, by omega⟩).symm
  | counted _ _ _ before => exact (if_neg fun ⟨_, last⟩ => by omega).symm
  | reading τ _ armed last sum =>
    exact ((if_pos ⟨armed, last⟩).trans (if_pos ((ok_iff τ rfl).2 sum))).symm
  | mismatch τ _ armed last sum =>
    exact ((if_pos ⟨armed, last⟩).trans (if_neg (mt (ok_iff τ rfl).1 sum))).symm
  | timeout _ _ armed | cancelled _ _ armed | restarted _ _ armed => exact (if_pos armed).symm
  | wdtIdle _ _ idle | cancelIdle _ _ idle | started _ _ idle => exact (if_neg (by simp [idle])).symm

/-! ## The order of delivery -/

/-- A `RISE` at the last position ends the cycle with one of the validator's two verdicts. -/
theorem afterOp_rise_last {s : State} (τ : Tick) (armed : s.armed = true) (last : s.index = 39) :
    ∃ o, (afterOp (.rise τ) s).emitted = s.emitted ++ [.wd 0, .out o] ∧
      (o.kind = .reading ∨ o.kind = .checksumMismatch) ∧ o.time = τ ∧
      (afterOp (.rise τ) s).armed = false := by
  by_cases sum : sumMatches s (elapsed s.tref τ)
  · rw [afterOp_rise_valid armed last sum]
    exact ⟨_, rfl, .inl rfl, rfl, rfl⟩
  · rw [afterOp_rise_invalid armed last sum]
    exact ⟨_, rfl, .inr rfl, rfl, rfl⟩

/-- Settles O48: the operation that comes second finds no cycle in progress. -/
theorem theOrderOfDeliveryDecides : Obligations.TheOrderOfDeliveryDecides := by
  unfold Obligations.TheOrderOfDeliveryDecides
  intro s σ τ armed last
  simp only [runTrace_ops_iff]
  refine ⟨?riseFirst, ?wdtFirst⟩
  case riseFirst =>
    obtain ⟨o, emitted, kind, time, idle⟩ :=
      afterOp_rise_last (s := { s with emitted := [] }) σ armed last
    have disarmed := afterOp_wdt_idle τ
      (s := { afterOp (.rise σ) { s with emitted := [] } with emitted := [] }) idle
    simp only [runOps, disarmed, emitted]
    exact ⟨o, _, rfl, kind, time, idle⟩
  case wdtFirst =>
    have timedOut := afterOp_wdt_open τ (s := { s with emitted := [] }) armed
    simp only [runOps, timedOut]
    rw [afterOp_rise_ignored σ (.inl rfl)]
    exact ⟨_, rfl, rfl, rfl, rfl, rfl, rfl, rfl, rfl⟩

/-! ## One outcome for every cycle -/

/-- A step opens a cycle if it is an `ARM`, and closes as many as it emits outcomes. -/
theorem Effect.outcomes_length {s t : State} {i : Instr} (e : Effect s i t) :
    (outcomes t.emitted).length + t.armed.toNat = (isArm i).toNat + s.armed.toNat := by
  cases e with
  | fallIgnored | fallRecorded | resync | riseIgnored | counted | wdtIdle | cancelIdle | rsv5 | rsv6
  | rsv7 => simp [outcomes, isArm]
  | reading _ _ armed | mismatch _ _ armed | timeout _ _ armed | cancelled _ _ armed
  | restarted _ _ armed => simp [outcomes, isArm, armed]
  | started _ _ idle => simp [outcomes, isArm, idle]

theorem length_filter_isArm_cons (i : Instr) (ops : List Instr) :
    ((i :: ops).filter isArm).length = (isArm i).toNat + (ops.filter isArm).length := by
  cases h : isArm i <;> simp [h, Nat.add_comm]

theorem runOps_outcomes_length (ops : List Instr) (s : State) :
    (outcomes (runOps ops s).1).length + (runOps ops s).2.armed.toNat =
      (ops.filter isArm).length + s.armed.toNat := by
  induction ops generalizing s with
  | nil => simp [runOps, outcomes]
  | cons i rest ih =>
    have first := (eventStep_present i s).effect.outcomes_length
    have later := ih (afterOp i { s with emitted := [] })
    rw [State.present_armed] at first
    simp only [runOps, outcomes_append, List.length_append, length_filter_isArm_cons]
    omega

/-- Settles O52: `runOps_outcomes_length`, by induction over the operations. -/
theorem oneOutcomePerCycle : Obligations.OneOutcomePerCycle := by
  unfold Obligations.OneOutcomePerCycle
  intro ops s t outs h
  have count := runOps_outcomes_length ops s
  rw [runTrace_ops_iff.1 h] at count
  refine ⟨count, fun idle none => List.eq_nil_of_length_eq_zero ?_⟩
  simp only [idle, none, List.length_nil, Bool.toNat_false] at count
  omega

/-- After a `WDT`, a `CANCEL` or an `ARM` a cycle is in progress only if the operation started it. -/
theorem afterOp_armed_of_endsAnyCycle {i : Instr} (ends : endsAnyCycle i = true) (s : State) :
    (afterOp i s).armed = isArm i := by
  cases i with
  | wdt τ => rw [afterOp_wdt]; cases s.armed <;> rfl
  | cancel τ => rw [afterOp_cancel]; cases s.armed <;> rfl
  | arm τ => rw [afterOp_arm]; rfl
  | fall | rise | rsv5 | rsv6 | rsv7 => cases ends

/-- Settles O53: of the cycle in progress and those that the operations open, only one that the last
operation opens can still be in progress at the end; all the others had their outcomes. -/
theorem cycleEndsAtTheLatestAtWdtCancelOrArm : Obligations.CycleEndsAtTheLatestAtWdtCancelOrArm := by
  unfold Obligations.CycleEndsAtTheLatestAtWdtCancelOrArm
  intro ops i s t outs armed ends h none
  have run := runTrace_ops_iff.1 h
  have count := runOps_outcomes_length (ops ++ [i]) s
  have last : (runOps (ops ++ [i]) s).2.armed = isArm i := by
    rw [runOps_append]
    exact afterOp_armed_of_endsAnyCycle ends _
  rw [last, run, none, armed, List.filter_append, List.length_append,
    length_filter_isArm_cons] at count
  simp only [List.length_nil, List.filter_nil, Bool.toNat_true] at count
  omega

end Sys2Proof.Machine
end

section
/-! PROOFS. Reset and the hazards (spec/70_reset_and_hazards.md): the input `RESET`, and the pulse of 200
ticks or more that spoils an attempt. -/

namespace Sys2Proof.Machine

/-! ## Reset -/

/-- An operation never clears the result latch: it writes a `READING` to it or leaves it as it was. -/
theorem EventStep.keeps_resValid {s t : State} {i : Instr} (h : EventStep s i t)
    (valid : s.resValid = true) : t.resValid = true := by
  obtain ⟨latch, -⟩ := latchHoldsTheLastReading
  obtain ⟨written, kept⟩ := latch s i t h
  by_cases reading : GivesReading t.emitted
  · obtain ⟨o, ho, kind⟩ := reading
    exact (written o ho kind).1
  · exact (kept (not_givesReading.1 reading)).resValid.symm.trans valid

/-- Settles O7: the step of a `RESET` is `State.takeReset`; of the other two kinds of step, waiting changes
no register and an operation keeps a valid latch valid. -/
theorem resetInputResetsEveryRegister : Obligations.ResetInputResetsEveryRegister := by
  unfold Obligations.ResetInputResetsEveryRegister
  refine ⟨fun s rest hi => step_reset hi, fun s t other valid hs => ?_⟩
  obtain ⟨-, rfl⟩ | ⟨rest, hi, -⟩ | ⟨w, rest, hi, -⟩ := step_cases hs
  · exact valid
  · simp [hi] at other
  · exact EventStep.keeps_resValid ⟨w, rest, hi, rfl, hs⟩ valid

/-- Settles O8: `RESET` emits nothing and leaves no cycle in progress, and a `WDT` then only disarms the
watchdog. -/
theorem resetDuringACycleGivesNoOutcome : Obligations.ResetDuringACycleGivesNoOutcome := by
  unfold Obligations.ResetDuringACycleGivesNoOutcome
  intro s τ _
  have answer : runOps [.wdt τ] (s.takeReset s.inputs) =
      ([.wd 0], { s.takeReset s.inputs with emitted := [.wd 0] }) :=
    congrArg (fun u => (u.emitted ++ [], u)) (afterOp_wdt_idle τ rfl)
  exact ⟨_, _, runTrace_reset [] s, rfl, runTrace_ops_iff.2 answer, rfl, rfl⟩

/-! ## The long pulse -/

/-- The checksum of a `READING` is a sum of bytes modulo 256, below the sentinel flag (R131, R132). -/
theorem Effect.sentinelFlag_clear_of_reading {s t : State} {i : Instr} (e : Effect s i t)
    (reading : GivesReading t.emitted) : sentinelFlag t.cs = false := by
  cases e with
  | reading τ _ _ _ sum =>
    have sum : (csAfter s (elapsed s.tref τ)).toNat = (s.hum.toNat + s.tmp.toNat) % 256 := sum
    show sentinelFlag (csAfter s (elapsed s.tref τ)) = false
    rw [sentinelFlag_eq, decide_eq_false_iff_not]
    omega
  | fallIgnored | fallRecorded | resync | riseIgnored | counted | mismatch | timeout | wdtIdle
  | cancelled | cancelIdle | restarted | started | rsv5 | rsv6 | rsv7 =>
    simp [GivesReading] at reading

/-- If a cycle is in progress, its sentinel flag is set and none of the operations to come resynchronises:
the state in which a long pulse leaves an attempt (R210). -/
def Poisoned (s : State) (ops : List Instr) : Prop :=
  s.armed = true → sentinelFlag s.cs = true ∧ fallsClose s.tref ops

/-- Only an `ARM` and a hard resync clear the flag, and only `FALL` and `ARM` move the reference tick. -/
theorem EventStep.keeps_poison {s t : State} {i : Instr} {ops : List Instr} (h : EventStep s i t)
    (hi : isArm i = false) (armed : s.armed = true) (poisoned : Poisoned s (i :: ops)) :
    sentinelFlag t.cs = true ∧ fallsClose t.tref ops := by
  obtain ⟨flag, close⟩ := poisoned armed
  obtain ⟨trefAfter, -⟩ := referenceTickHasTwoWriters
  rw [sentinelFlagIsSticky s i t h, trefAfter s i t h]
  cases i with
  | fall τ =>
    obtain ⟨short, close⟩ := close
    rw [tickDelta_toNat] at short
    simp only [armed, if_true, Nat.not_lt.2 short, and_false, if_false]
    exact ⟨flag, close⟩
  | rise τ => exact ⟨by simp [flag], close⟩
  | arm τ => cases hi
  | wdt | cancel | rsv5 | rsv6 | rsv7 => exact ⟨flag, close⟩

theorem runOps_noReading_of_poisoned {ops : List Instr} {s : State} (noArm : ops.filter isArm = [])
    (poisoned : Poisoned s ops) : ¬ GivesReading (runOps ops s).1 := by
  induction ops generalizing s with
  | nil => simp [runOps, GivesReading]
  | cons i rest ih =>
    obtain ⟨hi, noArm⟩ : isArm i = false ∧ rest.filter isArm = [] := by
      simpa [List.filter_eq_nil_iff] using noArm
    have h := eventStep_present i s
    have kept (armed : s.armed = true) := h.keeps_poison hi armed poisoned
    refine mt givesReading_append.1 (not_or.2 ⟨fun reading => ?_, ih noArm fun busy => ?_⟩)
    · have clear := h.effect.sentinelFlag_clear_of_reading reading
      obtain ⟨o, ho, kind⟩ := reading
      obtain ⟨-, armed, -⟩ := h.effect.reading_source ho kind
      simp [(kept armed).1] at clear
    · exact kept (armed_afterOp_of_not_arm hi busy)

/-- Settles O45: the pulse sets the sentinel flag and leaves the reference tick, whence
`runOps_noReading_of_poisoned`. -/
theorem longPulsePoisonsTheAttempt : Obligations.LongPulsePoisonsTheAttempt := by
  unfold Obligations.LongPulsePoisonsTheAttempt
  intro s t τ ops outs armed index long noArm close h
  have run : runOps (.rise τ :: ops) s = (outs, t) := runTrace_ops_iff.1 h
  obtain ⟨rfl, -⟩ := Prod.mk.inj run
  have pulse := eventStep_present (.rise τ) s
  have flag := (sentinelFlagIsSticky _ _ _ pulse).trans (if_pos ⟨armed, index, long⟩)
  obtain ⟨trefAfter, -⟩ := referenceTickHasTwoWriters
  have tref := trefAfter _ _ _ pulse
  rw [← not_givesReading, givesReading_append, not_or]
  refine ⟨fun reading => ?_, runOps_noReading_of_poisoned noArm fun _ => ⟨flag, ?_⟩⟩
  · have clear := pulse.effect.sentinelFlag_clear_of_reading reading
    simp [flag] at clear
  · exact tref ▸ close

end Sys2Proof.Machine
end

section
/-! PROOFS. The event words of the vector table (spec/95_test_vectors.md V12). -/

namespace Sys2Proof.Machine

/-- A word decodes to one operation only, the one whose word it is (R75). -/
theorem decode_eq_iff {w : EventWord} {i : Instr} : decode w = i ↔ encode i = w :=
  ⟨fun h => h ▸ encode_decode w, fun h => h ▸ decode_encode i⟩

/-- Settles O4: by `decode_eq_iff`, each row is a claim about the encoder, whose layout `op ++ tick` is
evaluated at the row's code and tick. -/
theorem wordsOfTheVectorTableDecode : Obligations.WordsOfTheVectorTableDecode := by
  unfold Obligations.WordsOfTheVectorTableDecode
  simp only [decode_eq_iff]
  decide

end Sys2Proof.Machine
end
